-- ==== Sys2Proof/Word.lean ====
section
/-! DEFINITION. The widths of the block's values (00_scope.md R13, R17): bytes, the 16-bit command and
event words, the 32-bit response data word, the `u64` operand of `TXI`, and one level of the select line. -/

namespace Sys2Proof

/-- A byte: 8 bits, unsigned (R13). -/
abbrev Byte := BitVec 8

/-- A command word (R71) or an event word (R82). -/
abbrev Word16 := BitVec 16

/-- The data word of a response (R17, R80). -/
abbrev Word32 := BitVec 32

/-- The `u64` of R13, the operand of `TXI`. -/
abbrev U64 := BitVec 64

/-- A level of the select line: `false` is level 0, `true` is level 1 (R16, R34). -/
abbrev Level := Bool

end Sys2Proof
end

