-- ==== Sys2Proof/Config.lean ====
section
/-! DEFINITION. What an instance of the block fixes once: the parameters of 00_scope.md section 3 with the
defaults the spec gives them (R5 to R11), and the two constants the spec fixes (R6, R7). The spec leaves no
value of the block open, so there is no free value here (log entry 12). -/

namespace Sys2Proof

/-- `OVERSIZE_POLICY` (R8, decision D9). -/
inductive OversizePolicy where
  | discard
  | truncate
  deriving DecidableEq, Repr

/-- `TX_DELIM_POLICY` (R9, decision D13). -/
inductive TxDelimPolicy where
  | reject
  | sendRaw
  deriving DecidableEq, Repr

/-- The parameters of one instance. A field default is the default the spec gives the parameter. -/
structure Params where
  /-- `L`, the frame capacity (R5). `Params.wf` is the range the spec allows. -/
  capacity : Nat := 51
  /-- `OVERSIZE_POLICY` (R8). -/
  oversize : OversizePolicy := .discard
  /-- `TX_DELIM_POLICY` (R9). -/
  txDelim : TxDelimPolicy := .reject
  /-- `CS_RESET_LEVEL` (R10). -/
  csReset : Level := true
  /-- `TRANSPORT_FAIR` (R11): an assumption about the environment. -/
  transportFair : Bool := false
  deriving DecidableEq, Repr

/-- The instance with every parameter at its default. -/
def Params.standard : Params := {}

/-- `DELIM`, the delimiter byte (R6). -/
def delim : Byte := 0x0D#8

/-- `MAXW`, the largest integer width of `TXI` in bytes (R7). -/
def maxWidth : Nat := 8

end Sys2Proof
end

