-- ==== Sys2Proof/Syntax.lean ====
section
/-! DEFINITION. The instructions: one constructor for each row of spec/opcode_table.json (30_encoding.md R74
for the eight host commands, R82 for the two transport events), with the operands the encoding gives them. -/

namespace Sys2Proof

/-- `ROLE` (R23): 0 is slave, 1 is master. -/
inductive Role where
  | slave
  | master
  deriving DecidableEq, Repr

/-- `BITORD` (R24): 0 is `MSB_FIRST`, 1 is `LSB_FIRST`. -/
inductive BitOrder where
  | msbFirst
  | lsbFirst
  deriving DecidableEq, Repr

/-- `POL` (R75): 0 is `def` (select line active low), 1 is `inv` (active high). -/
inductive Polarity where
  | dflt
  | inv
  deriving DecidableEq, Repr

/-- The two ports of the block (R70). -/
inductive Port where
  | host
  | transport
  deriving DecidableEq, Repr

/-- The operand payload that stands beside a command word on the host command port (R72). The opcode alone
says whether one is read and which: `text` by `TXS`, `value` by `TXI`, neither by any other word. Carrying
both always is log entry 4. -/
structure Payload where
  text : List Byte := []
  value : U64 := 0#64
  deriving DecidableEq, Repr

/-- A port that presents no payload. -/
def Payload.empty : Payload := {}

/-- The instructions. Counts and indexes (`w`, `i`) are numbers; `Instr.wf` says that they fit `IMM8`. -/
inductive Instr where
  /-- `CFG` (R180). -/
  | cfg (en x2 : Bool) (div mode : BitVec 2) (bitord : BitOrder) (role : Role)
  /-- `TXB` (R161). -/
  | txb (pol : Polarity) (b : Byte)
  /-- `TXS` (R162). -/
  | txs (pol : Polarity) (text : List Byte)
  /-- `TXI` (R163). -/
  | txi (pol : Polarity) (w : Nat) (value : U64)
  /-- `TAKE` (R120). -/
  | take
  /-- `RDSB` (R124). -/
  | rdsb (i : Nat)
  /-- `RDST` (R181). -/
  | rdst
  /-- `ACKERR` (R183). -/
  | ackerr (ovr ovsz : Bool)
  /-- `RXB` (R101), an event of the transport. -/
  | rxb (b : Byte)
  /-- `TXDONE` (R144), an event of the transport. -/
  | txdone
  deriving DecidableEq, Repr

/-- The port an instruction comes in on (R70; the column "port" of the opcode table). -/
def Instr.port : Instr → Port
  | .cfg .. => .host
  | .txb .. => .host
  | .txs .. => .host
  | .txi .. => .host
  | .take => .host
  | .rdsb _ => .host
  | .rdst => .host
  | .ackerr .. => .host
  | .rxb _ => .transport
  | .txdone => .transport

end Sys2Proof
end

