-- ==== Sys2Proof/WellFormed.lean ====
section
/-! DEFINITION. Which instructions have an encoding, and which instances the spec admits. -/

namespace Sys2Proof

/-- An instance is admitted when `1 <= L <= 255` (R5). -/
abbrev Params.wf (p : Params) : Prop := 1 ≤ p.capacity ∧ p.capacity ≤ 255

/-- An instruction has an encoding when its count or index fits the 8 bits of `IMM8` (R73, R79). Every other
operand's type is exactly its field (R77, R78, R82), or is carried beside the word (R72). -/
def Instr.wf : Instr → Bool
  | .cfg .. => true
  | .txb .. => true
  | .txs .. => true
  | .txi _ w _ => decide (w < 256)
  | .take => true
  | .rdsb i => decide (i < 256)
  | .rdst => true
  | .ackerr .. => true
  | .rxb _ => true
  | .txdone => true

end Sys2Proof
end

