-- ==== Sys2Proof/Decode.lean ====
section
/-! DEFINITION. The decoder of each port, total on every word and refusing by name (30_encoding.md R76, R82,
R83), and after it the encoder, written from the formats H and E (R71, R73, R77 to R79, R82). -/

namespace Sys2Proof

/-- Why a command word is illegal: the five bullets of R76, in R76's order. -/
inductive CmdReject where
  /-- `OP` is `0x0` or in `0x9`–`0xF`. -/
  | unusedOpcode
  /-- `RSV != 0`. -/
  | reservedBits
  /-- `POL = 1` and `OP` is not `TXB`, `TXS` or `TXI`. -/
  | polarityUnused
  /-- `IMM8 != 0` on `TXS`, `TAKE` or `RDST`. -/
  | immediateUnused
  /-- `IMM8[7:2] != 0` on `ACKERR`. -/
  | clearBitsUnused
  deriving DecidableEq, Repr

/-- Why an event word is none of the two of R82. -/
inductive EventReject where
  /-- `EVT` is neither `0x1` nor `0x2`. -/
  | unknownKind
  /-- `ERSV != 0`. -/
  | reservedBits
  /-- `EDATA != 0` in `TXDONE`. -/
  | dataUnused
  deriving DecidableEq, Repr

/-- Why a word on a port is no instruction. -/
inductive DecodeReject where
  | command (r : CmdReject)
  | event (r : EventReject)
  deriving DecidableEq, Repr

/-- The fields of format H (R71). -/
def opField (w : Word16) : BitVec 4 := w.extractLsb' 12 4
def polField (w : Word16) : Bool := w.getLsbD 11
def rsvField (w : Word16) : BitVec 3 := w.extractLsb' 8 3
def immField (w : Word16) : Byte := w.extractLsb' 0 8

/-- The fields of format E (R82). -/
def evtField (w : Word16) : BitVec 4 := w.extractLsb' 12 4
def ersvField (w : Word16) : BitVec 4 := w.extractLsb' 8 4
def edataField (w : Word16) : Byte := w.extractLsb' 0 8

/-- `POL` read as a polarity (R75). -/
def polarityOf : Bool → Polarity
  | false => .dflt
  | true => .inv

/-- `BITORD` of the `CFG` immediate (R77). -/
def bitOrderOf : Bool → BitOrder
  | false => .msbFirst
  | true => .lsbFirst

/-- `ROLE` of the `CFG` immediate (R77). -/
def roleOf : Bool → Role
  | false => .slave
  | true => .master

/-- `CFG` from its immediate (R77). -/
def cfgOfImm (imm : Byte) : Instr :=
  .cfg (imm.getLsbD 7) (imm.getLsbD 6) (imm.extractLsb' 4 2) (imm.extractLsb' 2 2)
    (bitOrderOf (imm.getLsbD 1)) (roleOf (imm.getLsbD 0))

/-- The decode of a command word (R83). The payload is read by `TXS` and `TXI` alone (R72). -/
def decodeCommand (w : Word16) (p : Payload) : Except CmdReject Instr :=
  let pol := polField w
  let imm := immField w
  if rsvField w ≠ 0#3 then .error .reservedBits
  else match (opField w).toNat with
    | 0x1 => if pol then .error .polarityUnused else .ok (cfgOfImm imm)
    | 0x2 => .ok (.txb (polarityOf pol) imm)
    | 0x3 => if imm ≠ 0#8 then .error .immediateUnused else .ok (.txs (polarityOf pol) p.text)
    | 0x4 => .ok (.txi (polarityOf pol) imm.toNat p.value)
    | 0x5 =>
      if pol then .error .polarityUnused
      else if imm ≠ 0#8 then .error .immediateUnused else .ok .take
    | 0x6 => if pol then .error .polarityUnused else .ok (.rdsb imm.toNat)
    | 0x7 =>
      if pol then .error .polarityUnused
      else if imm ≠ 0#8 then .error .immediateUnused else .ok .rdst
    | 0x8 =>
      if pol then .error .polarityUnused
      else if imm.extractLsb' 2 6 ≠ 0#6 then .error .clearBitsUnused
      else .ok (.ackerr (imm.getLsbD 0) (imm.getLsbD 1))
    | _ => .error .unusedOpcode

/-- The decode of an event word (R82). -/
def decodeEvent (w : Word16) : Except EventReject Instr :=
  if ersvField w ≠ 0#4 then .error .reservedBits
  else match (evtField w).toNat with
    | 0x1 => .ok (.rxb (edataField w))
    | 0x2 => if edataField w ≠ 0#8 then .error .dataUnused else .ok .txdone
    | _ => .error .unknownKind

/-- What stands on a port: the port, the word and the payload beside it. The two ports number their words
separately, and the same 16 bits mean different things on each (R70, log entry 3). -/
structure PortWord where
  port : Port
  word : Word16
  payload : Payload := {}
  deriving DecidableEq, Repr

/-- The decode of what stands on a port. -/
def decode (pw : PortWord) : Except DecodeReject Instr :=
  match pw.port with
  | .host => (decodeCommand pw.word pw.payload).mapError .command
  | .transport => (decodeEvent pw.word).mapError .event

/-- The word the host's tools give for a row of the opcode table: `nbits` bits, bit 0 the least significant. -/
def tableWord (nbits w : Nat) : Word16 := BitVec.ofNat 16 (w % 2 ^ nbits)

/-- The instruction the decoder of the HOST COMMAND PORT reads from a table word, with no payload beside it.
A table word names no port; that it is read on the host command port is log entry 3. -/
def decodeTableWord (nbits w : Nat) : Option Instr :=
  (decodeCommand (tableWord nbits w) Payload.empty).toOption

/-- `POL` as a bit (R75). -/
def polarityBit : Polarity → BitVec 1
  | .dflt => 0#1
  | .inv => 1#1

/-- `BITORD` as a bit (R77). -/
def bitOrderBit : BitOrder → BitVec 1
  | .msbFirst => 0#1
  | .lsbFirst => 1#1

/-- `ROLE` as a bit (R77). -/
def roleBit : Role → BitVec 1
  | .slave => 0#1
  | .master => 1#1

/-- Format H with `RSV = 0` (R71). -/
def commandWord (op : BitVec 4) (pol : BitVec 1) (imm : Byte) : Word16 := op ++ pol ++ 0#3 ++ imm

/-- Format E with `ERSV = 0` (R82). -/
def eventWord (evt : BitVec 4) (data : Byte) : Word16 := evt ++ 0#4 ++ data

/-- The `CFG` immediate (R77). -/
def cfgImm (en x2 : Bool) (div mode : BitVec 2) (bitord : BitOrder) (role : Role) : Byte :=
  BitVec.ofBool en ++ BitVec.ofBool x2 ++ div ++ mode ++ bitOrderBit bitord ++ roleBit role

/-- The `ACKERR` immediate (R78). -/
def ackerrImm (ovr ovsz : Bool) : Byte := 0#6 ++ BitVec.ofBool ovsz ++ BitVec.ofBool ovr

/-- The encoding of an instruction: the word of the opcode table (R74, R82) and the payload (R72). -/
def encode : Instr → PortWord
  | .cfg en x2 div mode bitord role =>
    { port := .host, word := commandWord 0x1#4 0#1 (cfgImm en x2 div mode bitord role) }
  | .txb pol b => { port := .host, word := commandWord 0x2#4 (polarityBit pol) b }
  | .txs pol text =>
    { port := .host, word := commandWord 0x3#4 (polarityBit pol) 0#8, payload := { text := text } }
  | .txi pol w value =>
    { port := .host, word := commandWord 0x4#4 (polarityBit pol) (BitVec.ofNat 8 w)
      payload := { value := value } }
  | .take => { port := .host, word := commandWord 0x5#4 0#1 0#8 }
  | .rdsb i => { port := .host, word := commandWord 0x6#4 0#1 (BitVec.ofNat 8 i) }
  | .rdst => { port := .host, word := commandWord 0x7#4 0#1 0#8 }
  | .ackerr ovr ovsz => { port := .host, word := commandWord 0x8#4 0#1 (ackerrImm ovr ovsz) }
  | .rxb b => { port := .transport, word := eventWord 0x1#4 b }
  | .txdone => { port := .transport, word := eventWord 0x2#4 0#8 }

end Sys2Proof
end

