-- ==== Sys2Proof/Machine/State.lean ====
section
/-! DEFINITION. The state of the block and of its environment as plain data (10_state.md), the reasons a
step can stop, and the state after reset (R39, R250). -/

namespace Sys2Proof.Machine

/-- One byte buffer: the cells that do not hold `0x00`, in rising order of index (`Memory.wf`). A cell that is
not listed holds `0x00`, the reset value the spec gives every cell (R39). -/
abbrev Memory := List Host.Cell

/-- The phase of the transmit sequencer (R35). -/
inductive Phase where
  | issue
  | wait
  | release
  deriving DecidableEq, Repr

/-- `TxState`, the transmit sequencer (R35). -/
inductive TxState where
  | idle
  | busy (seq : List Byte) (k : Nat) (pol : Polarity) (phase : Phase)
  deriving DecidableEq, Repr

/-- A wire event (R16): the select line was driven, or the transmission of a byte started. -/
inductive WireEvent where
  | cs (level : Level)
  | byte (b : Byte)
  deriving DecidableEq, Repr

/-- The response codes (R81). The codes `0x6` to `0xF` are never returned, so they have no constructor. -/
inductive RespCode where
  | ok
  | illegal
  | notMaster
  | badWidth
  | delimInPayload
  | indexRange
  deriving DecidableEq, Repr

/-- A response on the host command port (R80). -/
structure Response where
  code : RespCode
  data : Word32
  deriving DecidableEq, Repr

/-- One step of an agent, as the environment chooses it (R4, R60, R230). -/
inductive Input where
  /-- The HOST presents a command word with its payload (R70). -/
  | command (w : Word16) (p : Payload)
  /-- The HOST takes the micro-step it has, `S1` or `S3`; it has none when idle or waiting (R146). -/
  | hostStep
  /-- The TRANSPORT presents an event word (R82). -/
  | event (w : Word16)
  /-- The TRANSPORT's step `ARRIVE(b)` (R233). -/
  | arrive (b : Byte)
  /-- Power-on reset (R250). -/
  | reset
  deriving DecidableEq, Repr

/-- The whole state. The parameters, the two observations (`trace`, `responses`) and the schedule (`inputs`)
are the model's own fields; every other field is a state element of 10_state.md. -/
structure State where
  /-- The instance's parameters (00_scope.md section 3). No step changes them. -/
  par : Params
  /-- `EN` (R22). -/
  en : Bool
  /-- `ROLE` (R23). -/
  role : Role
  /-- `BITORD` (R24). -/
  bitord : BitOrder
  /-- `MODE` (R24). -/
  mode : BitVec 2
  /-- `DIV` (R24). -/
  div : BitVec 2
  /-- `X2` (R24). -/
  x2 : Bool
  /-- `Stg`, the Staging Buffer (R25). -/
  stg : Memory
  /-- `RxIdx` (R26). -/
  rxIdx : BitVec 8
  /-- `RxOvf` (R27). -/
  rxOvf : Bool
  /-- `Slot`, the ready slot (R28). -/
  slot : Memory
  /-- `SlotLen` (R29). -/
  slotLen : BitVec 8
  /-- `Ready`, the Frame-Ready Flag (R30). -/
  ready : Bool
  /-- `Stb`, the Stable Buffer (R31). -/
  stb : Memory
  /-- `OvrCnt` (R32). -/
  ovrCnt : BitVec 8
  /-- `OvszCnt` (R33). -/
  ovszCnt : BitVec 8
  /-- `CS` (R34). -/
  cs : Level
  /-- `TxState` (R35). -/
  tx : TxState
  /-- `RxIn`, the transport's list of bytes not yet delivered, oldest first (R36). -/
  rxIn : List Byte
  /-- The wire trace, oldest first (R16, R37). -/
  trace : List WireEvent
  /-- The responses the block has given, oldest first (R80). Log entry 5. -/
  responses : List Response
  /-- The steps of the agents still to come, next first. Log entry 1. -/
  inputs : List Input
  deriving DecidableEq, Repr

/-- The reasons for a fault. Both are positions the spec says do not exist (R14), and neither can arise in a
state that meets the invariants of R38. -/
inductive Fault where
  /-- Raised by `TAKE` and by a delimiter's `RXB` when a block of cells would reach past the capacity `L`
  (R14, R50: no index outside `[0, L)` is reached). Safe. -/
  | indexOutsideBuffer
  /-- Raised by the HOST micro-step `S1` when `k` is no index of the frame (R35). Safe. -/
  | indexOutsideFrame
  deriving DecidableEq, Repr

/-- The reasons for a refusal: what the TRANSPORT or the HOST never does (R238). -/
inductive Refusal where
  /-- Raised by an arm of `exec` whose instruction has no meaning yet; no arm does. Safe. -/
  | notModelled (mnemonic : String)
  /-- Raised by `step`: an instance with `L` outside `[1, 255]` (R5, R238). Safe. -/
  | capacityOutOfRange
  /-- Raised by `step`: an event word that is not one of the two of R82 (R238). Safe. -/
  | badEventWord
  /-- Raised by `TXDONE` while `TxState` is not in phase `Wait` (R238). Safe. -/
  | txdoneOutsideWait
  /-- Raised by `RXB` while `EN = 0` or `ROLE = 1` (R238). Safe. -/
  | rxbNotEnabled
  /-- Raised by `RXB` while `RxIn` is empty (R238). Safe. -/
  | rxbNothingPending
  /-- Raised by `RXB` whose byte is not the head of `RxIn`, which the TRANSPORT never delivers (R100, R233).
  Safe. Log entry 7. -/
  | rxbNotHead
  /-- Raised by every host command while `TxState != Idle` (R146, R238). Safe. -/
  | commandWhileBusy
  deriving DecidableEq, Repr

/-- What a step, or a meaning, answers. -/
abbrev Result := Host.Outcome State Fault Refusal

/-- The state after reset of an instance with parameters `p`, with nothing scheduled: the table of R39, and the
wire trace of a power-on reset (R250). -/
def State.resetWith (p : Params) : State where
  par := p
  en := false
  role := .slave
  bitord := .msbFirst
  mode := 0#2
  div := 0#2
  x2 := false
  stg := []
  rxIdx := 0#8
  rxOvf := false
  slot := []
  slotLen := 0#8
  ready := false
  stb := []
  ovrCnt := 0#8
  ovszCnt := 0#8
  cs := p.csReset
  tx := .idle
  rxIn := []
  trace := [.cs p.csReset]
  responses := []
  inputs := []

/-- The state after reset of the instance with the default parameters. -/
def State.reset : State := State.resetWith Params.standard

end Sys2Proof.Machine
end

