-- ==== Sys2Proof/Machine/Flags.lean ====
section
/-! DEFINITION. Every value the spec computes into a counter, a status word or a response: the saturating
increment (R13), the status word (R182), the response data of `TAKE` and `RDSB` (R80) and the code of a
response as four bits (R81). -/

namespace Sys2Proof.Machine

/-- `sat_inc_8` (R13). -/
def satInc8 (x : BitVec 8) : BitVec 8 := if x = 255#8 then 255#8 else x + 1#8

/-- A flag as a number of 32 bits. -/
def bit32 (b : Bool) : Word32 := (BitVec.ofBool b).setWidth 32

/-- `status_word()` (R182). -/
def statusWord (s : State) : Word32 :=
  (s.rxIdx.setWidth 32) <<< 24 ||| (s.ovszCnt.setWidth 32) <<< 16 ||| (s.ovrCnt.setWidth 32) <<< 8
    ||| bit32 s.rxOvf <<< 4 ||| bit32 s.cs <<< 3 ||| (roleBit s.role).setWidth 32 <<< 2
    ||| bit32 s.en <<< 1 ||| bit32 s.ready

/-- The data of a `TAKE` that took a frame of length `n`: `GOT = 1` and `LEN = n` (R80, R120). -/
def takeData (n : BitVec 8) : Word32 := (n.setWidth 32) <<< 8 ||| 1#32

/-- The data of an `RDSB` that read the byte `b` (R80, R124). -/
def byteData (b : Byte) : Word32 := b.setWidth 32

/-- The four bits of a response code (R81). -/
def respCodeBits : RespCode → BitVec 4
  | .ok => 0x0#4
  | .illegal => 0x1#4
  | .notMaster => 0x2#4
  | .badWidth => 0x3#4
  | .delimInPayload => 0x4#4
  | .indexRange => 0x5#4

end Sys2Proof.Machine
end

