-- ==== Sys2Proof/Machine/Ops.lean ====
section
/-! DEFINITION. The named operations the meanings are written with: the byte buffers (20_memory.md R50, R57),
the response that ends a command (R14, R80), the error that ends one (R220), the admission of a host command
(R146) and the taking of the receive interrupt (R228). The block has no trap entry and no return from one
(R231): an error response is its only exception, and nothing is saved. -/

namespace Sys2Proof.Machine

/-- `BufRead(B, i)` (R14): one byte at one index. -/
def Memory.read : Memory → Nat → Byte
  | [], _ => 0#8
  | (a, v) :: rest, i => if a = i then v else Memory.read rest i

/-- `BufWrite(B, i, v)` (R14): one byte at one index. Writing `0x00` takes the cell out of the list. -/
def Memory.write : Memory → Nat → Byte → Memory
  | [], i, v => if v = 0#8 then [] else [(i, v)]
  | (a, x) :: rest, i, v =>
    if i < a then (if v = 0#8 then (a, x) :: rest else (i, v) :: (a, x) :: rest)
    else if i = a then (if v = 0#8 then rest else (i, v) :: rest)
    else (a, x) :: Memory.write rest i v

/-- The canonical form of a buffer: indices strictly rising, and no cell listed that holds `0x00`. -/
abbrev Memory.wf (m : Memory) : Prop := m.Pairwise (fun c d => c.1 < d.1) ∧ ∀ c ∈ m, c.2 ≠ 0#8

/-- Every listed cell lies in `[0, L)` (R50). -/
abbrev Memory.inside (L : Nat) (m : Memory) : Prop := ∀ c ∈ m, c.1 < L

/-- `for i in 0 .. n-1: dst[i] <- src[i]`. -/
def Memory.copy (dst src : Memory) : Nat → Memory
  | 0 => dst
  | n + 1 => (Memory.copy dst src n).write n (src.read n)

/-- `for i in lo .. lo+n-1: m[i] <- 0x00`. -/
def Memory.zeroFrom (m : Memory) (lo : Nat) : Nat → Memory
  | 0 => m
  | n + 1 => (Memory.zeroFrom m lo n).write (lo + n) 0#8

/-- `emit E` (R14): append a wire event to the trace. -/
def emit (e : WireEvent) (s : State) : State := { s with trace := s.trace ++ [e] }

/-- `respond(code, data)` (R14, R80). -/
def respond (code : RespCode) (data : Word32) (s : State) : State :=
  { s with responses := s.responses ++ [{ code := code, data := data }] }

/-- `raise Err(code)` (R14, R220): the command ends, nothing but the response changes, and its data is 0. This
is the one way an exception is taken. -/
def raiseErr (code : RespCode) (s : State) : Result := .next (respond code 0#32 s)

/-- Carry a function over the next state of an outcome; a fault and a refusal stay as they are. -/
def onNext {α : Type} (f : State → α) : Result → Host.Outcome α Fault Refusal
  | .next s => .next (f s)
  | .fault r => .fault r
  | .refused r => .refused r

/-- A host command is issued only while the sequencer is idle (R146); a second one is refused (R238). -/
def hostCommand (s : State) (answer : Result) : Result :=
  if s.tx = .idle then answer else .refused .commandWhileBusy

/-- The answer to an illegal command word (R76, R221). -/
def execIllegal (s : State) : Result := hostCommand s (raiseErr .illegal s)

/-- The enable of the receive interrupt: `EN = 1` and `ROLE = 0` (R100, R228). -/
def rxEnabled (s : State) : Bool := s.en && decide (s.role = .slave)

/-- The enable of the transmit commands: `EN = 1` and `ROLE = 1` (R160, R222). -/
def txEnabled (s : State) : Bool := s.en && decide (s.role = .master)

/-- Taking the receive interrupt for the byte `b` (R100, R228): it must be enabled, a byte must be pending, `b`
must be the head of `RxIn`, and the head is removed. -/
def takeInterrupt (b : Byte) (s : State) : Except Refusal State :=
  if rxEnabled s then
    match s.rxIn with
    | [] => .error .rxbNothingPending
    | h :: rest => if h = b then .ok { s with rxIn := rest } else .error .rxbNotHead
  else .error .rxbNotEnabled

/-- The TRANSPORT's step `ARRIVE(b)` (R233): the byte is appended to `RxIn` while reception is enabled, and is
discarded otherwise. -/
def arrive (b : Byte) (s : State) : State :=
  if rxEnabled s then { s with rxIn := s.rxIn ++ [b] } else s

/-- Power-on reset of a running block (R250 to R252): every state element takes its value of R39, `RxIn` is
emptied and `CS(CS_RESET_LEVEL)` is appended to the trace, which keeps what it holds. No response is given. -/
def powerOnReset (s : State) : State :=
  { State.resetWith s.par with
    trace := s.trace ++ [.cs s.par.csReset]
    responses := s.responses
    inputs := s.inputs }

end Sys2Proof.Machine
end

