-- ==== Sys2Proof/Machine/Control.lean ====
section
/-! DEFINITION. `CFG`, `RDST` and `ACKERR` (44_control_status.md). -/

namespace Sys2Proof.Machine

/-- `CFG` (R180): the six configuration fields, and nothing else (R185). -/
def execCfg (en x2 : Bool) (div mode : BitVec 2) (bitord : BitOrder) (role : Role) (s : State) : Result :=
  hostCommand s (.next (respond .ok 0#32
    { s with en := en, x2 := x2, div := div, mode := mode, bitord := bitord, role := role }))

/-- `RDST` (R181): the status word, with no side effect. -/
def execRdst (s : State) : Result := hostCommand s (.next (respond .ok (statusWord s) s))

/-- `ACKERR` (R183): clears the counters it names. -/
def execAckerr (ovr ovsz : Bool) (s : State) : Result :=
  hostCommand s (.next (respond .ok 0#32
    { s with
      ovrCnt := if ovr then 0#8 else s.ovrCnt
      ovszCnt := if ovsz then 0#8 else s.ovszCnt }))

end Sys2Proof.Machine
end

