-- ==== Sys2Proof/Machine/Framer.lean ====
section
/-! DEFINITION. `RXB`, the Receive Framer (40_receive_framer.md R101 to R110). -/

namespace Sys2Proof.Machine

/-- A payload byte: stored at the cursor while there is room, and dropped otherwise, the first dropped byte of a
frame being marked and counted (R101, R102). -/
def receivePayload (b : Byte) (s : State) : State :=
  if s.rxIdx.toNat < s.par.capacity then
    { s with stg := s.stg.write s.rxIdx.toNat b, rxIdx := s.rxIdx + 1#8 }
  else if s.rxOvf then s
  else { s with rxOvf := true, ovszCnt := satInc8 s.ovszCnt }

/-- The end of a frame at its delimiter: the cursor and the oversize mark start again (R101). -/
def endFrame (s : State) : State := { s with rxIdx := 0#8, rxOvf := false }

/-- Whether the frame now ending is dropped (R104): it is oversize and the policy is `Discard`. -/
def dropsFrame (s : State) : Bool := s.rxOvf && decide (s.par.oversize = .discard)

/-- The move of the completed frame into the ready slot (R103), counting the frame it replaces (R105). -/
def moveToSlot (s : State) : State :=
  { s with
    ovrCnt := if s.ready then satInc8 s.ovrCnt else s.ovrCnt
    slot := s.slot.copy s.stg s.rxIdx.toNat
    slotLen := s.rxIdx
    ready := true }

/-- A delimiter (R103, R104). -/
def receiveDelim (s : State) : Result :=
  if dropsFrame s then .next (endFrame s)
  else if s.rxIdx.toNat ≤ s.par.capacity then .next (endFrame (moveToSlot s))
  else .fault .indexOutsideBuffer

/-- `RXB` (R101): one atomic step of the FRAMER, the body of the receive interrupt. -/
def execRxb (b : Byte) (s : State) : Result :=
  match takeInterrupt b s with
  | .error r => .refused r
  | .ok s' => if b = delim then receiveDelim s' else .next (receivePayload b s')

end Sys2Proof.Machine
end

