-- ==== Sys2Proof/Machine/Snapshot.lean ====
section
/-! DEFINITION. `TAKE` and `RDSB`, the Frame Snapshot Reader (41_snapshot_reader.md). -/

namespace Sys2Proof.Machine

/-- The drain of the ready slot into the Stable Buffer, the `Ready = 1` branch of R120: the frame's cells are
copied, the rest of `Stb` is padded with `0x00`, and the copied cells of `Slot` are cleared. -/
def drainSlot (s : State) : State :=
  { s with
    stb := (s.stb.copy s.slot s.slotLen.toNat).zeroFrom s.slotLen.toNat
      (s.par.capacity - s.slotLen.toNat)
    slot := s.slot.zeroFrom 0 s.slotLen.toNat
    slotLen := 0#8
    ready := false }

/-- `TAKE` (R120), one atomic step (R121). With `Ready = 0` it changes nothing (R122). -/
def execTake (s : State) : Result :=
  hostCommand s
    (if s.ready then
      if s.slotLen.toNat ≤ s.par.capacity then
        .next (respond .ok (takeData s.slotLen) (drainSlot s))
      else .fault .indexOutsideBuffer
    else .next (respond .ok 0#32 s))

/-- `RDSB` (R124). -/
def execRdsb (i : Nat) (s : State) : Result :=
  hostCommand s
    (if i ≥ s.par.capacity then raiseErr .indexRange s
    else .next (respond .ok (byteData (s.stb.read i)) s))

end Sys2Proof.Machine
end

