-- ==== Sys2Proof/Machine/Operands.lean ====
section
/-! DEFINITION. The operand forms of the transmit commands: how the payload of a frame is built from a byte, a
text or an integer (43_transmit_encoder.md R161 to R164). -/

namespace Sys2Proof.Machine

/-- The payload of `TXB` (R161). -/
def bytePayload (b : Byte) : List Byte := [b]

/-- The payload of `TXS`: the bytes of `text` before its first `0x00`, or all of them (R162). -/
def textPayload : List Byte → List Byte
  | [] => []
  | b :: rest => if b = 0#8 then [] else b :: textPayload rest

/-- `be_bytes(v, W)` (R164): the low `W` bytes of `v`, most significant first. The byte sent first is the one
with the largest shift, `8 * (W - 1)`. -/
def beBytes (v : U64) : Nat → List Byte
  | 0 => []
  | w + 1 => (v >>> (8 * w)).setWidth 8 :: beBytes v w

end Sys2Proof.Machine
end

