-- ==== Sys2Proof/Machine/SelectLine.lean ====
section
/-! DEFINITION. The Select-Line Controller (42_select_line.md): the levels (R140), the micro-steps `S0`, `S1` and
`S3` of a frame (R142, R143, R145) and the event `TXDONE` (R144). -/

namespace Sys2Proof.Machine

/-- `act(pol)` (R140). -/
def act : Polarity → Level
  | .dflt => false
  | .inv => true

/-- `inact(pol)` (R140). -/
def inact : Polarity → Level
  | .dflt => true
  | .inv => false

/-- Drive the select line, and record the drive (R16, R34). -/
def driveCs (level : Level) (s : State) : State := emit (.cs level) { s with cs := level }

/-- `S0(pol, seq)` (R142): assert the select line. -/
def s0 (pol : Polarity) (seq : List Byte) (s : State) : State :=
  driveCs (act pol) { s with tx := .busy seq 0 pol .issue }

/-- The HOST's own steps: `S1` (R143) in phase `Issue`, `S3` (R145) in phase `Release`. In any other state of the
sequencer the HOST has no micro-step, and nothing happens (R146). -/
def hostMicroStep (s : State) : Result :=
  match s.tx with
  | .busy seq k pol .issue =>
    match seq[k]? with
    | some b => .next (emit (.byte b) { s with tx := .busy seq k pol .wait })
    | none => .fault .indexOutsideFrame
  | .busy _ _ pol .release => .next (respond .ok 0#32 { driveCs (inact pol) s with tx := .idle })
  | .busy _ _ _ .wait => .next s
  | .idle => .next s

/-- `TXDONE` (R144). -/
def execTxdone (s : State) : Result :=
  match s.tx with
  | .busy seq k pol .wait =>
    .next { s with tx := .busy seq (k + 1) pol (if k + 1 = seq.length then .release else .issue) }
  | .busy _ _ _ .issue => .refused .txdoneOutsideWait
  | .busy _ _ _ .release => .refused .txdoneOutsideWait
  | .idle => .refused .txdoneOutsideWait

end Sys2Proof.Machine
end

