-- ==== Sys2Proof/Machine/Transmit.lean ====
section
/-! DEFINITION. `TXB`, `TXS` and `TXI`, the Transmit Encoder (43_transmit_encoder.md). Each makes the checks of R160
in their order in the atomic step that issues it; the frame it starts is answered at `S3` (R167). -/

namespace Sys2Proof.Machine

/-- Checks 4 and 5 of R160: the payload's delimiter check (R165), then `S0` on the payload and the delimiter. -/
def startFrame (pol : Polarity) (payload : List Byte) (s : State) : Result :=
  if s.par.txDelim = .reject ∧ delim ∈ payload then raiseErr .delimInPayload s
  else .next (s0 pol (payload ++ [delim]) s)

/-- `TXB` (R161). -/
def execTxb (pol : Polarity) (b : Byte) (s : State) : Result :=
  hostCommand s (if txEnabled s then startFrame pol (bytePayload b) s else raiseErr .notMaster s)

/-- `TXS` (R162). -/
def execTxs (pol : Polarity) (text : List Byte) (s : State) : Result :=
  hostCommand s (if txEnabled s then startFrame pol (textPayload text) s else raiseErr .notMaster s)

/-- `TXI` (R163). -/
def execTxi (pol : Polarity) (w : Nat) (value : U64) (s : State) : Result :=
  hostCommand s
    (if txEnabled s then
      if w > maxWidth then raiseErr .badWidth s else startFrame pol (beBytes value w) s
    else raiseErr .notMaster s)

end Sys2Proof.Machine
end

