-- ==== Sys2Proof/Machine/Dispatch.lean ====
section
/-! DEFINITION. The meaning of each instruction: one arm per constructor, each one call. -/

namespace Sys2Proof.Machine

def exec (i : Instr) (s : State) : Host.Outcome State Fault Refusal :=
  match i with
  | .cfg en x2 div mode bitord role => Sys2Proof.Machine.execCfg en x2 div mode bitord role s
  | .txb pol b => Sys2Proof.Machine.execTxb pol b s
  | .txs pol text => Sys2Proof.Machine.execTxs pol text s
  | .txi pol w value => Sys2Proof.Machine.execTxi pol w value s
  | .take => Sys2Proof.Machine.execTake s
  | .rdsb idx => Sys2Proof.Machine.execRdsb idx s
  | .rdst => Sys2Proof.Machine.execRdst s
  | .ackerr ovr ovsz => Sys2Proof.Machine.execAckerr ovr ovsz s
  | .rxb b => Sys2Proof.Machine.execRxb b s
  | .txdone => Sys2Proof.Machine.execTxdone s

end Sys2Proof.Machine
end

