-- ==== Sys2Proof/Machine/Idle.lean ====
section
/-! DEFINITION. What the block and its environment do while nothing is scheduled: the HOST takes the micro-step it
has, and a fair TRANSPORT (`TRANSPORT_FAIR`, R11) completes the byte being sent and delivers the bytes that wait.
Log entries 1 and 2. -/

namespace Sys2Proof.Machine

/-- The step taken with an empty schedule. Without fairness a byte in phase `Wait` is never completed and a byte
in `RxIn` never delivered: the state stands still (R149, R237). -/
def idleStep (s : State) : Result :=
  match s.tx with
  | .busy _ _ _ .issue => hostMicroStep s
  | .busy _ _ _ .release => hostMicroStep s
  | .busy _ _ _ .wait => if s.par.transportFair then execTxdone s else .next s
  | .idle =>
    match s.rxIn with
    | b :: _ => if s.par.transportFair && rxEnabled s then execRxb b s else .next s
    | [] => .next s

end Sys2Proof.Machine
end

