-- ==== Sys2Proof/Machine/Step.lean ====
section
/-! DEFINITION. One step: the next entry of the schedule is taken (20_memory.md R58, R60; 60_exceptions.md R230).
The ports decode what stands on them and `exec` gives its meaning. -/

namespace Sys2Proof.Machine

/-- One step of the agent the schedule names, in a state the schedule entry has been taken from. -/
def stepInput : Input → State → Result
  | .command w p, s =>
    match decodeCommand w p with
    | .ok i => exec i s
    | .error _ => execIllegal s
  | .hostStep, s => hostMicroStep s
  | .event w, s =>
    match decodeEvent w with
    | .ok i => exec i s
    | .error _ => .refused .badEventWord
  | .arrive b, s => .next (arrive b s)
  | .reset, s => .next (powerOnReset s)

/-- One atomic step of the model. An instance with `L` outside `[1, 255]` is refused (R5, R238). -/
def step (s : State) : Host.Outcome State Fault Refusal :=
  if s.par.wf then
    match s.inputs with
    | [] => idleStep s
    | i :: rest => stepInput i { s with inputs := rest }
  else .refused .capacityOutOfRange

/-- The state whose next step presents a table word on the host command port, with no payload beside it. -/
def State.withFetchWord (s : State) (nbits w : Nat) : State :=
  { s with inputs := .command (tableWord nbits w) Payload.empty :: s.inputs }

end Sys2Proof.Machine
end

