-- ==== Sys2Proof/Machine/Assembler.lean ====
section
/-! DEFINITION. The assembler of 30_encoding.md section 6: one line of text is one instruction (R85, R86), or one
transport event of a listing (R87). What the syntax leaves open is log entry 9. -/

namespace Sys2Proof.Machine

/-- A token of a line. -/
inductive Tok where
  | atom (cs : List Char)
  | text (cs : List Char)
  | comma
  | equals
  | lbrack
  | rbrack
  | atSign
  deriving DecidableEq, Repr

/-- The character that opens and closes a quoted string. -/
def quoteChar : Char := Char.ofNat 34

/-- The tokens of one character. -/
def punctuation (c : Char) : Option Tok :=
  if c = ',' then some .comma
  else if c = '=' then some .equals
  else if c = '[' then some .lbrack
  else if c = ']' then some .rbrack
  else if c = '@' then some .atSign
  else none

/-- The atom collected so far (in reverse), if there is one. -/
def flushAtom : List Char → List Tok
  | [] => []
  | c :: cs => [.atom (c :: cs).reverse]

/-- The tokens of a line; `none` when a quoted string is not closed. -/
def lexLine (inText : Bool) (acc : List Char) : List Char → Option (List Tok)
  | [] => if inText then none else some (flushAtom acc)
  | c :: cs =>
    if inText then
      if c = quoteChar then (lexLine false [] cs).map (fun ts => .text acc.reverse :: ts)
      else lexLine true (c :: acc) cs
    else if c = quoteChar then (lexLine true [] cs).map (fun ts => flushAtom acc ++ ts)
    else match punctuation c with
      | some t => (lexLine false [] cs).map (fun ts => flushAtom acc ++ t :: ts)
      | none =>
        if c = ' ' then (lexLine false [] cs).map (fun ts => flushAtom acc ++ ts)
        else lexLine false (c :: acc) cs

/-- The value of a digit. -/
def digitValue (c : Char) : Option Nat :=
  if 48 ≤ c.toNat ∧ c.toNat ≤ 57 then some (c.toNat - 48)
  else if 97 ≤ c.toNat ∧ c.toNat ≤ 102 then some (c.toNat - 87)
  else if 65 ≤ c.toNat ∧ c.toNat ≤ 70 then some (c.toNat - 55)
  else none

/-- The number that digits of a base spell, after `acc`. -/
def digitsFrom (base acc : Nat) : List Char → Option Nat
  | [] => some acc
  | c :: cs =>
    match digitValue c with
    | some d => if d < base then digitsFrom base (acc * base + d) cs else none
    | none => none

/-- A number: decimal, or hexadecimal after `0x` (R85). -/
def parseNumber : List Char → Option Nat
  | [] => none
  | '0' :: 'x' :: c :: cs => digitsFrom 16 0 (c :: cs)
  | cs => digitsFrom 10 0 cs

/-- A number below a bound. -/
def parseBelow (bound : Nat) (cs : List Char) : Option Nat :=
  (parseNumber cs).filter (fun n => decide (n < bound))

/-- A byte. -/
def parseByte (cs : List Char) : Option Byte := (parseBelow 256 cs).map (BitVec.ofNat 8)

/-- A bit. -/
def parseBit (cs : List Char) : Option Bool := (parseBelow 2 cs).map (fun n => n == 1)

/-- The bytes of a quoted string: each character is its ASCII code, and the delimiter cannot be written (R86). -/
def quotedBytes : List Char → Option (List Byte)
  | [] => some []
  | c :: cs =>
    if c.toNat < 128 ∧ c.toNat ≠ delim.toNat then
      (quotedBytes cs).map (fun bs => BitVec.ofNat 8 c.toNat :: bs)
    else none

/-- The bytes of a list after its opening bracket. -/
def listedBytes : List Tok → Option (List Byte)
  | [.atom v, .rbrack] => (parseByte v).map (fun b => [b])
  | .atom v :: .comma :: rest =>
    match parseByte v, listedBytes rest with
    | some b, some bs => some (b :: bs)
    | _, _ => none
  | _ => none

/-- The operand of `TXS` in either form. -/
def textOperand : List Tok → Option (List Byte)
  | [.text cs] => quotedBytes cs
  | [.lbrack, .rbrack] => some []
  | .lbrack :: rest => listedBytes rest
  | _ => none

/-- The fields of a `CFG` line that have been given. -/
structure CfgLine where
  en : Option Bool := none
  x2 : Option Bool := none
  div : Option (BitVec 2) := none
  mode : Option (BitVec 2) := none
  bitord : Option BitOrder := none
  role : Option Role := none

/-- The values of `ord`. -/
def parseOrder (v : List Char) : Option BitOrder :=
  if v = "msb".toList then some .msbFirst else if v = "lsb".toList then some .lsbFirst else none

/-- The values of `role`. -/
def parseRole (v : List Char) : Option Role :=
  if v = "slave".toList then some .slave else if v = "master".toList then some .master else none

/-- One `CFG` field; a field that is given twice is refused. -/
def setField (k v : List Char) (f : CfgLine) : Option CfgLine :=
  if k = "en".toList then
    if f.en.isSome then none else (parseBit v).map (fun b => { f with en := some b })
  else if k = "x2".toList then
    if f.x2.isSome then none else (parseBit v).map (fun b => { f with x2 := some b })
  else if k = "div".toList then
    if f.div.isSome then none else (parseBelow 4 v).map (fun n => { f with div := some (BitVec.ofNat 2 n) })
  else if k = "mode".toList then
    if f.mode.isSome then none else (parseBelow 4 v).map (fun n => { f with mode := some (BitVec.ofNat 2 n) })
  else if k = "ord".toList then
    if f.bitord.isSome then none else (parseOrder v).map (fun o => { f with bitord := some o })
  else if k = "role".toList then
    if f.role.isSome then none else (parseRole v).map (fun r => { f with role := some r })
  else none

/-- The fields of a `CFG` line, in any order (R85). -/
def cfgFields : List Tok → CfgLine → Option CfgLine
  | [.atom k, .equals, .atom v], f => setField k v f
  | .atom k :: .equals :: .atom v :: .comma :: rest, f => (setField k v f).bind (cfgFields rest)
  | _, _ => none

/-- A `CFG` line's instruction; an omitted field is 0 (R85). -/
def cfgLine (ts : List Tok) : Option Instr :=
  (if ts = [] then some {} else cfgFields ts {}).map (fun f =>
    .cfg (f.en.getD false) (f.x2.getD false) (f.div.getD 0#2) (f.mode.getD 0#2)
      (f.bitord.getD .msbFirst) (f.role.getD .slave))

/-- An `ACKERR` line's instruction. -/
def ackerrLine : List Tok → Option Instr
  | [] => some (.ackerr false false)
  | [.atom a] =>
    if a = "ovr".toList then some (.ackerr true false)
    else if a = "ovsz".toList then some (.ackerr false true) else none
  | [.atom a, .comma, .atom b] =>
    if a = "ovr".toList ∧ b = "ovsz".toList then some (.ackerr true true) else none
  | _ => none

/-- The mnemonic before a dot, and what follows the dot. -/
def splitDot : List Char → List Char × Option (List Char)
  | [] => ([], none)
  | c :: cs => if c = '.' then ([], some cs) else (c :: (splitDot cs).1, (splitDot cs).2)

/-- The polarity suffix; an omitted one means `.def` (R85). -/
def polaritySuffix : Option (List Char) → Option Polarity
  | none => some .dflt
  | some cs => if cs = "def".toList then some .dflt else if cs = "inv".toList then some .inv else none

/-- The transmit commands. -/
def transmitLine (name : List Char) (pol : Polarity) (ts : List Tok) : Option Instr :=
  if name = "TXB".toList then
    match ts with
    | [.atom v] => (parseByte v).map (.txb pol)
    | _ => none
  else if name = "TXS".toList then (textOperand ts).map (.txs pol)
  else if name = "TXI".toList then
    match ts with
    | [.atom w, .comma, .atom v] =>
      match parseBelow 256 w, parseBelow (2 ^ 64) v with
      | some w, some v => some (.txi pol w (BitVec.ofNat 64 v))
      | _, _ => none
    | _ => none
  else none

/-- The commands that take no polarity. -/
def plainLine (name : List Char) (ts : List Tok) : Option Instr :=
  if name = "CFG".toList then cfgLine ts
  else if name = "TAKE".toList then (if ts = [] then some .take else none)
  else if name = "RDSB".toList then
    match ts with
    | [.atom v] => (parseBelow 256 v).map .rdsb
    | _ => none
  else if name = "RDST".toList then (if ts = [] then some .rdst else none)
  else if name = "ACKERR".toList then ackerrLine ts
  else none

/-- The event lines of a listing (R87). -/
def eventLine (name : List Char) (ts : List Tok) : Option Instr :=
  if name = "RXB".toList then
    match ts with
    | [.atom v] => (parseByte v).map .rxb
    | _ => none
  else if name = "TXDONE".toList then (if ts = [] then some .txdone else none)
  else none

/-- The instruction of a line's tokens. -/
def parseLine : List Tok → Option Instr
  | .atom m :: ts =>
    let parts := splitDot m
    match parts.2 with
    | none =>
      match plainLine parts.1 ts with
      | some i => some i
      | none => transmitLine parts.1 .dflt ts
    | some suffix => (polaritySuffix (some suffix)).bind (fun pol => transmitLine parts.1 pol ts)
  | .atSign :: .atom m :: ts => eventLine m ts
  | _ => none

/-- The instruction a line of text stands for. -/
def assemble (line : String) : Option Instr := (lexLine false [] line.toList).bind parseLine

/-- The steps a line of a listing stands for (R87): a command is presented; `@RXB b` arrives and is delivered; and
`@TXDONE` completes a byte. The HOST then takes the micro-step it has, if it has one (log entry 9). -/
def listingInputs (i : Instr) : List Input :=
  match i with
  | .rxb b => [.arrive b, .event (encode i).word, .hostStep]
  | .txdone => [.event (encode i).word, .hostStep]
  | .cfg .. => [.command (encode i).word (encode i).payload, .hostStep]
  | .txb .. => [.command (encode i).word (encode i).payload, .hostStep]
  | .txs .. => [.command (encode i).word (encode i).payload, .hostStep]
  | .txi .. => [.command (encode i).word (encode i).payload, .hostStep]
  | .take => [.command (encode i).word (encode i).payload, .hostStep]
  | .rdsb _ => [.command (encode i).word (encode i).payload, .hostStep]
  | .rdst => [.command (encode i).word (encode i).payload, .hostStep]
  | .ackerr .. => [.command (encode i).word (encode i).payload, .hostStep]

end Sys2Proof.Machine
end

