-- ==== Sys2Proof/Machine/Codec.lean ====
section
/-! DEFINITION. The host-side reference functions of 45_codec_reference.md. They are no part of the block and touch
no state (R203); the properties of the spec are stated with them. -/

namespace Sys2Proof.Machine

/-- `bytes_to_u64` (R200): the big-endian fold, modulo `2^64` at each step. -/
def bytesToU64 (bytes : List Byte) : U64 :=
  bytes.foldl (fun result b => result <<< 8 ||| b.setWidth 64) 0#64

/-- `sign(a - t)` of two unsigned bytes (R201). -/
def byteSign (a t : Byte) : Int := if a.toNat < t.toNat then -1 else if a = t then 0 else 1

/-- `bytes_equal_string` (R201): the end of either operand reads as `0x00`. A claim about the result may use only
its sign (93_implementation_defined.md U5). -/
def bytesEqualString : List Byte → List Byte → Int
  | [], [] => 0
  | [], t :: _ => byteSign 0#8 t
  | a :: _, [] => byteSign a 0#8
  | a :: bytes, t :: text =>
    if a ≠ t then byteSign a t else if a = 0#8 then 0 else bytesEqualString bytes text

end Sys2Proof.Machine
end

