-- ==== Sys2Proof/Machine/Link.lean ====
section
/-! DEFINITION. Two devices on one link (60_exceptions.md R234): a master `M` and a slave `S`, each a block of its
own. Each byte `M` puts on the wire arrives at `S` once, after its `BYTE` event and before its `TXDONE`. On a link
that is not matched the bytes `S` receives are any bytes (93_implementation_defined.md U7). Log entry 10. -/

namespace Sys2Proof.Machine

/-- Two devices and the byte now on the wire between them. `selected` is the level of the master's select line
that the slave's transport treats as selected. -/
structure Link where
  master : State
  slave : State
  onWire : Option Byte
  selected : Level
  deriving DecidableEq, Repr

/-- Which device takes the next step, or the arrival of the byte on the wire. -/
inductive LinkInput where
  | onMaster (i : Input)
  | onSlave (i : Input)
  | carry
  deriving DecidableEq, Repr

/-- The two devices' transports are set alike: bit order and mode (R234), and the clock settings, the divisor and its
multiplier (R55; 93_implementation_defined.md U7). -/
def sameSettings (s t : State) : Bool :=
  decide (s.bitord = t.bitord) && decide (s.mode = t.mode) && decide (s.div = t.div) && decide (s.x2 = t.x2)

/-- The condition under which bytes cross the link as they were sent (R234, with R55 and U7). -/
def linkMatched (l : Link) : Bool :=
  l.master.en && l.slave.en && decide (l.master.role = .master) && decide (l.slave.role = .slave)
    && sameSettings l.master l.slave && decide (l.master.cs = l.selected)

/-- One step of a device on one input. -/
def deviceStep (i : Input) (s : State) : Result := step { s with inputs := i :: s.inputs }

/-- The byte the device's `S1` would put on the wire, if that micro-step is enabled. -/
def issuedByte (s : State) : Option Byte :=
  match s.tx with
  | .busy seq k _ .issue => seq[k]?
  | .busy _ _ _ .wait => none
  | .busy _ _ _ .release => none
  | .idle => none

/-- What is on the wire after the master's step on `i`. -/
def wireAfter (i : Input) (l : Link) : Option Byte :=
  match i with
  | .hostStep => (issuedByte l.master).or l.onWire
  | .event _ => none
  | .reset => none
  | .command _ _ => l.onWire
  | .arrive _ => l.onWire

/-- Whether the input is the completion of the byte being sent. -/
def isTxdone : Input → Bool
  | .event w => decide ((decodeEvent w).toOption = some .txdone)
  | .command _ _ => false
  | .hostStep => false
  | .arrive _ => false
  | .reset => false

/-- The arrival of the byte on the wire at the slave (R234). On a matched link it is the slave's `ARRIVE` step, and
the wire is empty after it. With nothing on the wire, or on a link that is not matched, nothing arrives. -/
def carryByte (l : Link) : Host.Outcome Link Fault Refusal :=
  match l.onWire with
  | none => .next l
  | some b =>
    if linkMatched l then onNext (fun t => { l with slave := t, onWire := none }) (deviceStep (.arrive b) l.slave)
    else .next l

/-- The master's step on an input. -/
def masterStep (i : Input) (l : Link) : Host.Outcome Link Fault Refusal :=
  onNext (fun m => { l with master := m, onWire := wireAfter i l }) (deviceStep i l.master)

/-- The slave's step on an input. -/
def slaveStep (i : Input) (l : Link) : Host.Outcome Link Fault Refusal :=
  onNext (fun t => { l with slave := t }) (deviceStep i l.slave)

/-- One step of the two-device system (R234). A completion brings the arrival of its byte with it, before it, if the
byte has not arrived by then; and what arrives at the slave of a matched link is the byte on the wire. -/
def linkStep : LinkInput → Link → Host.Outcome Link Fault Refusal
  | .onMaster i, l =>
    if isTxdone i then
      match carryByte l with
      | .next l' => masterStep i l'
      | .fault r => .fault r
      | .refused r => .refused r
    else masterStep i l
  | .onSlave i, l =>
    match i with
    | .arrive b => if linkMatched l then carryByte l else slaveStep (.arrive b) l
    | .command w p => slaveStep (.command w p) l
    | .hostStep => slaveStep .hostStep l
    | .event w => slaveStep (.event w) l
    | .reset => slaveStep .reset l
  | .carry, l => carryByte l

end Sys2Proof.Machine
end

