-- ==== Sys2Proof/Safety.lean ====
section
/-! DEFINITION. What counts as a good state and a safe run, in the terms the statements use: the invariants of
10_state.md R38, the canonical form of the buffers, what the wire trace says of the select line and of the frame
being sent, who moves in the next step, and two relations between states that differ only in what no rule reads. -/

namespace Sys2Proof.Machine

/-- The instruction the next step runs, if it runs one. -/
def nextInstr (s : State) : Option Instr :=
  match s.inputs with
  | .command w p :: _ => (decodeCommand w p).toOption
  | .event w :: _ => (decodeEvent w).toOption
  | .hostStep :: _ => none
  | .arrive _ :: _ => none
  | .reset :: _ => none
  | [] =>
    match s.tx with
    | .busy _ _ _ .wait => if s.par.transportFair then some .txdone else none
    | .busy _ _ _ .issue => none
    | .busy _ _ _ .release => none
    | .idle =>
      match s.rxIn with
      | b :: _ => if s.par.transportFair && rxEnabled s then some (.rxb b) else none
      | [] => none

/-- The next step is a power-on reset. -/
def resetsNext (s : State) : Prop := s.inputs.head? = some .reset

/-- The next step is the HOST's micro-step (`S1` or `S3`). -/
def hostMovesNext (s : State) : Prop :=
  (s.inputs.head? = some .hostStep ∨ s.inputs = []) ∧
    ∃ seq k pol phase, s.tx = .busy seq k pol phase ∧ phase ≠ .wait

/-- The next step is an `RXB`. -/
def framerMovesNext (s : State) : Prop := ∃ b, nextInstr s = some (.rxb b)

/-- The next step issues a transmit command. -/
def transmitIssuedNext (s : State) : Prop :=
  (∃ pol b, nextInstr s = some (.txb pol b)) ∨ (∃ pol text, nextInstr s = some (.txs pol text)) ∨
    (∃ pol w value, nextInstr s = some (.txi pol w value))

/-- The state at the next step's start: the schedule entry it takes is gone. -/
def taken (s : State) : State := { s with inputs := s.inputs.tail }

/-- The clause of R38 about the transmit sequencer. -/
def txConsistent (s : State) : Prop :=
  match s.tx with
  | .idle => True
  | .busy seq k pol phase =>
    s.en = true ∧ s.role = .master ∧ s.cs = act pol ∧ 1 ≤ seq.length ∧ seq.getLast? = some delim ∧
      (match phase with
        | .issue => k < seq.length
        | .wait => k < seq.length
        | .release => k = seq.length)

/-- The invariants of R38, clause by clause. -/
structure Consistent (s : State) : Prop where
  idx_le : s.rxIdx.toNat ≤ s.par.capacity
  ovf_full : s.rxOvf = true → s.rxIdx.toNat = s.par.capacity
  len_le : s.slotLen.toNat ≤ s.par.capacity
  len_of_not_ready : s.ready = false → s.slotLen = 0#8
  tx_ok : txConsistent s

/-- Every state element holds its value of the reset table (R39). -/
def atResetValues (s : State) : Prop :=
  s.en = false ∧ s.role = .slave ∧ s.bitord = .msbFirst ∧ s.mode = 0#2 ∧ s.div = 0#2 ∧ s.x2 = false ∧
    (∀ i, s.stg.read i = 0#8) ∧ s.rxIdx = 0#8 ∧ s.rxOvf = false ∧
    (∀ i, s.slot.read i = 0#8) ∧ s.slotLen = 0#8 ∧ s.ready = false ∧ (∀ i, s.stb.read i = 0#8) ∧
    s.ovrCnt = 0#8 ∧ s.ovszCnt = 0#8 ∧ s.cs = s.par.csReset ∧ s.tx = .idle ∧ s.rxIn = []

/-- The three buffers are in canonical form and list no cell outside `[0, L)` (R50). -/
structure BuffersOk (s : State) : Prop where
  stg_wf : s.stg.wf
  slot_wf : s.slot.wf
  stb_wf : s.stb.wf
  stg_inside : s.stg.inside s.par.capacity
  slot_inside : s.slot.inside s.par.capacity
  stb_inside : s.stb.inside s.par.capacity

/-- The last level a trace drove the select line to. -/
def lastLevel : List WireEvent → Option Level
  | [] => none
  | .cs level :: rest => (lastLevel rest).or (some level)
  | .byte _ :: rest => lastLevel rest

/-- How many bytes of its frame the sequencer has put on the wire. -/
def bytesIssued (k : Nat) : Phase → Nat
  | .issue => k
  | .wait => k + 1
  | .release => k

/-- While a frame is being sent, the trace ends with the frame's assert drive and the bytes issued so far, in
order, and nothing else stands between them (R150). -/
def frameOnWire (s : State) : Prop :=
  match s.tx with
  | .idle => True
  | .busy seq k pol phase =>
    ∃ before, s.trace = before ++ .cs (act pol) :: (seq.take (bytesIssued k phase)).map .byte

/-- `k` steps, stopping at the first fault or refusal. -/
def runSteps : Nat → State → Result
  | 0, s => .next s
  | k + 1, s =>
    match step s with
    | .next t => runSteps k t
    | .fault r => .fault r
    | .refused r => .refused r

/-- A safe run: no number of steps ends in a fault. -/
def SafeRun (s : State) : Prop := ∀ k r, runSteps k s ≠ .fault r

/-- A state with the four fields that change no rule of the spec (R184) set to 0. -/
def withoutTransportFields (s : State) : State :=
  { s with x2 := false, div := 0#2, mode := 0#2, bitord := .msbFirst }

/-- Two states that differ at most in buffer cells no rule reads: cells of `Stg` at `RxIdx` and above, and cells of
`Slot` at `SlotLen` and above (R25, R28; 93_implementation_defined.md U3). -/
def sameButStale (s t : State) : Prop :=
  t = { s with stg := t.stg, slot := t.slot } ∧
    (∀ i, i < s.rxIdx.toNat → t.stg.read i = s.stg.read i) ∧
    (∀ i, i < s.slotLen.toNat → t.slot.read i = s.slot.read i)

end Sys2Proof.Machine
end

