-- ==== Sys2Proof/Certificates/Slice0/Obligations.lean ====
section
/-! DEFINITION. The statements about the model, by the spec's files: the encoding, each command and event, the
errors, reset, and the rules about the whole machine. Each docstring names the rule it formalises. Where a
statement gives an instruction's result as an equation, the equation also says that the instruction completes
and what it leaves unchanged: every field not named keeps its value. -/

open Sys2Proof Sys2Proof.Machine

-- ---- Encoding (30_encoding.md)

/-- Every instruction that has an encoding is read back from it, with every operand (R71 to R79, R82, R83). -/
def Obligations.DecodeOfEncodeIsTheInstruction : Prop :=
  ∀ i : Instr, i.wf = true → decode (encode i) = .ok i

/-- Whatever a port's word decodes to has an encoding, on the same port and with the same word, and takes its
payload operand from the port: no word has two meanings on a port (R71, R72, R82, R83). -/
def Obligations.EncodeOfDecodedWordIsTheWord : Prop :=
  ∀ (pw : PortWord) (i : Instr), decode pw = .ok i →
    i.wf = true ∧ (encode i).port = pw.port ∧ (encode i).word = pw.word ∧
      (∀ pol text, i = .txs pol text → text = pw.payload.text) ∧
      (∀ pol w value, i = .txi pol w value → value = pw.payload.value)

/-- The legal words of each opcode, and how many there are (R84, which the spec derives from R83). -/
def Obligations.LegalWordsOfEachOpcode : Prop :=
  ∀ p : Payload,
    (∀ n, n < 65536 →
      ((∃ en x2 div mode o r, decodeCommand (BitVec.ofNat 16 n) p = .ok (.cfg en x2 div mode o r)) ↔
        0x1000 ≤ n ∧ n ≤ 0x10FF) ∧
      ((∃ pol b, decodeCommand (BitVec.ofNat 16 n) p = .ok (.txb pol b)) ↔
        (0x2000 ≤ n ∧ n ≤ 0x20FF) ∨ (0x2800 ≤ n ∧ n ≤ 0x28FF)) ∧
      ((∃ pol text, decodeCommand (BitVec.ofNat 16 n) p = .ok (.txs pol text)) ↔ n = 0x3000 ∨ n = 0x3800) ∧
      ((∃ pol w v, decodeCommand (BitVec.ofNat 16 n) p = .ok (.txi pol w v)) ↔
        (0x4000 ≤ n ∧ n ≤ 0x40FF) ∨ (0x4800 ≤ n ∧ n ≤ 0x48FF)) ∧
      (decodeCommand (BitVec.ofNat 16 n) p = .ok .take ↔ n = 0x5000) ∧
      ((∃ i, decodeCommand (BitVec.ofNat 16 n) p = .ok (.rdsb i)) ↔ 0x6000 ≤ n ∧ n ≤ 0x60FF) ∧
      (decodeCommand (BitVec.ofNat 16 n) p = .ok .rdst ↔ n = 0x7000) ∧
      ((∃ a b, decodeCommand (BitVec.ofNat 16 n) p = .ok (.ackerr a b)) ↔ 0x8000 ≤ n ∧ n ≤ 0x8003)) ∧
    ((Finset.range 65536).filter
      (fun n => (decodeCommand (BitVec.ofNat 16 n) p).toOption.isSome = true)).card = 1544

/-- A command word is illegal exactly in the five cases of R76, and an idle block answers it with `ILLEGAL` and
changes nothing (R76, R221). -/
def Obligations.IllegalWordsAreAnsweredIllegal : Prop :=
  ∀ (w : Word16) (p : Payload),
    ((∃ r, decodeCommand w p = .error r) ↔
      ((w.extractLsb' 12 4).toNat = 0 ∨ 9 ≤ (w.extractLsb' 12 4).toNat) ∨
      w.extractLsb' 8 3 ≠ 0#3 ∨
      (w.getLsbD 11 = true ∧ w.extractLsb' 12 4 ∉ [2#4, 3#4, 4#4]) ∨
      (w.extractLsb' 12 4 ∈ [3#4, 5#4, 7#4] ∧ w.extractLsb' 0 8 ≠ 0#8) ∨
      (w.extractLsb' 12 4 = 8#4 ∧ w.extractLsb' 2 6 ≠ 0#6)) ∧
    ∀ (s : State) (r : CmdReject) (rest : List Input), s.par.wf → s.tx = .idle →
      s.inputs = .command w p :: rest → decodeCommand w p = .error r →
      step s = .next { s with
        inputs := rest, responses := s.responses ++ [{ code := .illegal, data := 0#32 }] }

/-- An event word is one of the two kinds of R82, or no instruction. -/
def Obligations.EventWordsAreTheTwoKinds : Prop :=
  ∀ (w : Word16) (i : Instr), decodeEvent w = .ok i ↔
    (∃ b : Byte, w = 0x1000#16 ||| b.setWidth 16 ∧ i = .rxb b) ∨ (w = 0x2000#16 ∧ i = .txdone)

/-- Words of the spec's examples and tables decode to the instructions the spec gives them (95_test_vectors.md
section 2.1; R85). -/
def Obligations.SpecWordsDecodeAsTheSpecSays : Prop :=
  let p : Payload := { text := [0x54#8], value := 0x1234#64 }
  decodeCommand 0x1081#16 p = .ok (.cfg true false 0#2 0#2 .msbFirst .master) ∧
  decodeCommand 0x10FF#16 p = .ok (.cfg true true 3#2 3#2 .lsbFirst .master) ∧
  decodeCommand 0x2841#16 p = .ok (.txb .inv 0x41#8) ∧
  decodeCommand 0x3800#16 p = .ok (.txs .inv [0x54#8]) ∧
  decodeCommand 0x4009#16 p = .ok (.txi .dflt 9 0x1234#64) ∧
  decodeCommand 0x5000#16 p = .ok .take ∧
  decodeCommand 0x60FF#16 p = .ok (.rdsb 255) ∧
  decodeCommand 0x7000#16 p = .ok .rdst ∧
  decodeCommand 0x8002#16 p = .ok (.ackerr false true) ∧
  decodeEvent 0x1041#16 = .ok (.rxb 0x41#8) ∧
  decodeEvent 0x2000#16 = .ok .txdone ∧
  decodeCommand 0x0000#16 p = .error .unusedOpcode ∧
  decodeEvent 0x1141#16 = .error .reservedBits

-- ---- Configuration, status and counters (44_control_status.md)

/-- `CFG`: its words and fields (R77), and its effect: the six configuration fields and the response, nothing else
(R180, R185). -/
def Obligations.CfgWritesItsSixFields : Prop :=
  (∀ (w : Word16) (p : Payload), (∃ en x2 div mode o r, decodeCommand w p = .ok (.cfg en x2 div mode o r)) ↔
    ∃ imm : Byte, w = 0x1000#16 ||| imm.setWidth 16) ∧
  (∀ (imm : Byte) (p : Payload), decodeCommand (0x1000#16 ||| imm.setWidth 16) p =
    .ok (.cfg (imm.getLsbD 7) (imm.getLsbD 6) (imm.extractLsb' 4 2) (imm.extractLsb' 2 2)
      (if imm.getLsbD 1 then .lsbFirst else .msbFirst) (if imm.getLsbD 0 then .master else .slave))) ∧
  ∀ (en x2 : Bool) (div mode : BitVec 2) (bitord : BitOrder) (role : Role) (s : State), s.tx = .idle →
    exec (.cfg en x2 div mode bitord role) s = .next { s with
      en := en, x2 := x2, div := div, mode := mode, bitord := bitord, role := role
      responses := s.responses ++ [{ code := .ok, data := 0#32 }] }

/-- `RDST` answers the status word, field by field, and changes nothing else (R181, R182). -/
def Obligations.RdstAnswersTheStatusWord : Prop :=
  (∀ (w : Word16) (p : Payload), decodeCommand w p = .ok .rdst ↔ w = 0x7000#16) ∧
  ∀ s : State, s.tx = .idle → ∃ d : Word32,
    exec .rdst s = .next { s with responses := s.responses ++ [{ code := .ok, data := d }] } ∧
    d.getLsbD 0 = s.ready ∧ d.getLsbD 1 = s.en ∧ d.getLsbD 2 = decide (s.role = .master) ∧
    d.getLsbD 3 = s.cs ∧ d.getLsbD 4 = s.rxOvf ∧ d.extractLsb' 5 3 = 0#3 ∧
    d.extractLsb' 8 8 = s.ovrCnt ∧ d.extractLsb' 16 8 = s.ovszCnt ∧ d.extractLsb' 24 8 = s.rxIdx

/-- `ACKERR`: its words (R78), and the counters it clears, nothing else (R183). -/
def Obligations.AckerrClearsTheNamedCounters : Prop :=
  (∀ (w : Word16) (ovr ovsz : Bool) (p : Payload), decodeCommand w p = .ok (.ackerr ovr ovsz) ↔
    w = 0x8000#16 ||| (BitVec.ofBool ovr).setWidth 16 ||| (BitVec.ofBool ovsz).setWidth 16 <<< 1) ∧
  ∀ (ovr ovsz : Bool) (s : State), s.tx = .idle →
    exec (.ackerr ovr ovsz) s = .next { s with
      ovrCnt := if ovr then 0#8 else s.ovrCnt
      ovszCnt := if ovsz then 0#8 else s.ovszCnt
      responses := s.responses ++ [{ code := .ok, data := 0#32 }] }

-- ---- Frame Snapshot Reader (41_snapshot_reader.md)

/-- `TAKE`: its one word; with `Ready = 0` it changes nothing and answers `GOT = 0` (R122). With `Ready = 1` it drains
the slot: the frame is in `Stb`, padded with `0x00`, the copied cells of `Slot` are cleared, `SlotLen` and `Ready`
are cleared, the response is `GOT = 1, LEN = n`, and every other field and cell is unchanged (R120, R123). -/
def Obligations.TakeDrainsTheSlot : Prop :=
  (∀ (w : Word16) (p : Payload), decodeCommand w p = .ok .take ↔ w = 0x5000#16) ∧
  (∀ s : State, s.tx = .idle → s.ready = false →
    exec .take s = .next { s with responses := s.responses ++ [{ code := .ok, data := 0#32 }] }) ∧
  ∀ s : State, s.tx = .idle → s.ready = true → s.slotLen.toNat ≤ s.par.capacity → s.stb.wf → s.slot.wf →
    ∃ stb slot : Memory,
      exec .take s = .next { s with
        stb := stb, slot := slot, slotLen := 0#8, ready := false
        responses := s.responses ++ [{ code := .ok, data := (s.slotLen.setWidth 32) <<< 8 ||| 1#32 }] } ∧
      (∀ j, stb.read j =
        if j < s.slotLen.toNat then s.slot.read j
        else if j < s.par.capacity then 0#8 else s.stb.read j) ∧
      (∀ j, slot.read j = if j < s.slotLen.toNat then 0#8 else s.slot.read j)

/-- `RDSB`: its words, the byte it answers, and `INDEX_RANGE` at and above `L`; no side effect (R124, R225). -/
def Obligations.RdsbAnswersOneByte : Prop :=
  (∀ (w : Word16) (i : Nat) (p : Payload), decodeCommand w p = .ok (.rdsb i) ↔
    ∃ b : Byte, i = b.toNat ∧ w = 0x6000#16 ||| b.setWidth 16) ∧
  ∀ (i : Nat) (s : State), s.tx = .idle →
    (i < s.par.capacity → exec (.rdsb i) s = .next { s with
      responses := s.responses ++ [{ code := .ok, data := (s.stb.read i).setWidth 32 }] }) ∧
    (s.par.capacity ≤ i → exec (.rdsb i) s = .next { s with
      responses := s.responses ++ [{ code := .indexRange, data := 0#32 }] })

/-- Only a `TAKE` that finds `Ready = 1`, and reset, write `Stb`; so any step that is neither leaves the answer of
every `RDSB` as it was (R125). -/
def Obligations.StableBufferIsWrittenOnlyByTake : Prop :=
  ∀ s t : State, step s = .next t → t.stb ≠ s.stb →
    resetsNext s ∨ (nextInstr s = some .take ∧ s.ready = true)

-- ---- Receive Framer (40_receive_framer.md)

/-- A payload byte with room is stored at the cursor, the cursor moves on, and nothing else changes but the
pending byte (R101, R107: also for the last cell). -/
def Obligations.RxbStoresAPayloadByte : Prop :=
  ∀ (s : State) (b : Byte) (rest : List Byte),
    s.par.wf → s.stg.wf → s.en = true → s.role = .slave → s.rxIn = b :: rest → b ≠ 0x0D#8 →
    s.rxIdx.toNat < s.par.capacity →
    ∃ stg : Memory,
      exec (.rxb b) s = .next { s with rxIn := rest, stg := stg, rxIdx := s.rxIdx + 1#8 } ∧
      (s.rxIdx + 1#8).toNat = s.rxIdx.toNat + 1 ∧
      (∀ j, stg.read j = if j = s.rxIdx.toNat then b else s.stg.read j)

/-- A payload byte that finds the buffer full is not stored; the first of a frame marks the frame and is counted
once, saturating, and later ones change nothing. No `RXB` at all writes a cell of `Stg` at or above `L` (R102). -/
def Obligations.RxbDropsAnOversizeByte : Prop :=
  (∀ (s : State) (b : Byte) (rest : List Byte),
    s.en = true → s.role = .slave → s.rxIn = b :: rest → b ≠ 0x0D#8 → s.rxIdx.toNat = s.par.capacity →
    exec (.rxb b) s = .next { s with
      rxIn := rest
      rxOvf := true
      ovszCnt := if s.rxOvf then s.ovszCnt else if s.ovszCnt = 255#8 then 255#8 else s.ovszCnt + 1#8 }) ∧
  ∀ (s t : State) (b : Byte), s.stg.wf → exec (.rxb b) s = .next t →
    ∀ j, s.par.capacity ≤ j → t.stg.read j = s.stg.read j

/-- A delimiter that ends an admitted frame moves it into the slot in one step: the cells, the length and the flag,
with the cursor and the mark cleared, and an undrained frame counted (R103; R105 and R106 in the same step). -/
def Obligations.RxbDelimiterMovesTheFrame : Prop :=
  ∀ (s : State) (rest : List Byte),
    s.slot.wf → s.en = true → s.role = .slave → s.rxIn = 0x0D#8 :: rest →
    (s.rxOvf = false ∨ s.par.oversize = .truncate) → s.rxIdx.toNat ≤ s.par.capacity →
    ∃ slot : Memory,
      exec (.rxb 0x0D#8) s = .next { s with
        rxIn := rest, slot := slot, slotLen := s.rxIdx, ready := true
        ovrCnt := if s.ready then (if s.ovrCnt = 255#8 then 255#8 else s.ovrCnt + 1#8) else s.ovrCnt
        rxIdx := 0#8, rxOvf := false } ∧
      (∀ j, slot.read j = if j < s.rxIdx.toNat then s.stg.read j else s.slot.read j)

/-- A delimiter that ends an oversize frame drops it under `Discard`, and delivers its first `L` bytes under
`Truncate` (R104). -/
def Obligations.RxbDelimiterOfAnOversizeFrame : Prop :=
  ∀ (s : State) (rest : List Byte),
    s.slot.wf → s.en = true → s.role = .slave → s.rxIn = 0x0D#8 :: rest → s.rxOvf = true →
    s.rxIdx.toNat = s.par.capacity →
    (s.par.oversize = .discard →
      exec (.rxb 0x0D#8) s = .next { s with rxIn := rest, rxIdx := 0#8, rxOvf := false }) ∧
    (s.par.oversize = .truncate →
      ∃ slot : Memory,
        exec (.rxb 0x0D#8) s = .next { s with
          rxIn := rest, slot := slot, slotLen := s.rxIdx, ready := true
          ovrCnt := if s.ready then (if s.ovrCnt = 255#8 then 255#8 else s.ovrCnt + 1#8) else s.ovrCnt
          rxIdx := 0#8, rxOvf := false } ∧
        s.rxIdx.toNat = s.par.capacity ∧
        (∀ j, slot.read j = if j < s.par.capacity then s.stg.read j else s.slot.read j))

/-- An overrun is counted exactly when an admitted frame replaces an undrained one: nothing else raises `OvrCnt`. The
frame is replaced whole by the new one, and the count saturates (R105). -/
def Obligations.OverrunIsAReplacedFrame : Prop :=
  ∀ s t : State, step s = .next t →
    (s.ovrCnt.toNat < t.ovrCnt.toNat →
      nextInstr s = some (.rxb 0x0D#8) ∧ s.ready = true ∧
        (s.rxOvf = false ∨ s.par.oversize = .truncate) ∧ t.ovrCnt.toNat = s.ovrCnt.toNat + 1) ∧
    (nextInstr s = some (.rxb 0x0D#8) → s.ready = true →
      (s.rxOvf = false ∨ s.par.oversize = .truncate) →
      t.ovrCnt.toNat = min 255 (s.ovrCnt.toNat + 1) ∧ t.slotLen = s.rxIdx ∧ t.ready = true ∧
        t.slot = s.slot.copy s.stg s.rxIdx.toNat)

/-- The framer touches nothing of the HOST's or the transmitter's side, and never takes the flag from `Ready` back to
`Filling` (R109, R110). -/
def Obligations.FramerLeavesTheHostSideAlone : Prop :=
  ∀ (s t : State) (b : Byte), exec (.rxb b) s = .next t →
    t.stb = s.stb ∧ (s.ready = true → t.ready = true) ∧ t.cs = s.cs ∧ t.tx = s.tx ∧ t.trace = s.trace ∧
      t.responses = s.responses ∧ t.en = s.en ∧ t.role = s.role ∧ t.bitord = s.bitord ∧ t.mode = s.mode ∧
      t.div = s.div ∧ t.x2 = s.x2 ∧ s.rxIn = b :: t.rxIn

/-- The receive interrupt is taken exactly when it is enabled and the byte is the pending one (R100, R228). The cursor's
bound is an invariant (R38). -/
def Obligations.InterruptIsTakenWhenEnabledAndPending : Prop :=
  ∀ (s : State) (b : Byte), s.rxIdx.toNat ≤ s.par.capacity →
    ((∃ t, exec (.rxb b) s = .next t) ↔ s.en = true ∧ s.role = .slave ∧ s.rxIn.head? = some b)

/-- No torn read: the slot, its length and the flag change only as a whole, at a delimiter that ends an admitted frame
or in a `TAKE` that drains it (or at reset). A byte of a frame still arriving changes none of them (R126). -/
def Obligations.SlotChangesOnlyAsAWhole : Prop :=
  ∀ s t : State, step s = .next t →
    (t.slot ≠ s.slot ∨ t.slotLen ≠ s.slotLen ∨ t.ready ≠ s.ready) →
    resetsNext s ∨ (nextInstr s = some .take ∧ s.ready = true ∧ t.ready = false ∧ t.slotLen = 0#8) ∨
      (nextInstr s = some (.rxb 0x0D#8) ∧ (s.rxOvf = false ∨ s.par.oversize = .truncate) ∧
        t.ready = true ∧ t.slotLen = s.rxIdx ∧ t.slot = s.slot.copy s.stg s.rxIdx.toNat)

/-- Round trip: the bytes of `payload` and the delimiter, delivered one by one into an empty staging buffer, are what
the next `TAKE` drains, with their length (R127). -/
def Obligations.DeliveredFrameIsTakenIntact : Prop :=
  ∀ (s : State) (payload : List Byte) (p : Payload) (rest : List Input),
    s.par.wf → s.stg.wf → s.slot.wf → s.stb.wf → s.tx = .idle → s.en = true → s.role = .slave →
    s.rxIn = [] → s.rxIdx = 0#8 → s.rxOvf = false → payload.length ≤ s.par.capacity → 0x0D#8 ∉ payload →
    s.inputs = (payload ++ [0x0D#8]).flatMap
        (fun b => [Input.arrive b, Input.event (0x1000#16 ||| b.setWidth 16)]) ++
      Input.command 0x5000#16 p :: rest →
    ∃ t : State,
      runSteps (2 * (payload.length + 1) + 1) s = .next t ∧
      t.responses = s.responses ++
        [{ code := .ok, data := (BitVec.ofNat 32 payload.length) <<< 8 ||| 1#32 }] ∧
      (∀ i, i < payload.length → some (t.stb.read i) = payload[i]?) ∧
      (∀ i, payload.length ≤ i → i < s.par.capacity → t.stb.read i = 0#8) ∧
      t.inputs = rest

-- ---- Select-Line Controller and Transmit Encoder (42_select_line.md, 43_transmit_encoder.md)

/-- The active and inactive levels of each polarity (R140). -/
def Obligations.LevelsOfEachPolarity : Prop :=
  act .dflt = false ∧ inact .dflt = true ∧ act .inv = true ∧ inact .inv = false

/-- `TXB`: its words, its checks in their order, and the frame it starts (R161). -/
def Obligations.TxbChecksThenAsserts : Prop :=
  (∀ (w : Word16) (b : Byte) (p : Payload),
    (decodeCommand w p = .ok (.txb .dflt b) ↔ w = 0x2000#16 ||| b.setWidth 16) ∧
    (decodeCommand w p = .ok (.txb .inv b) ↔ w = 0x2800#16 ||| b.setWidth 16)) ∧
  ∀ (pol : Polarity) (b : Byte) (s : State), s.tx = .idle →
    exec (.txb pol b) s = .next (
      if s.en = false ∨ s.role = .slave then
        { s with responses := s.responses ++ [{ code := .notMaster, data := 0#32 }] }
      else if s.par.txDelim = .reject ∧ b = 0x0D#8 then
        { s with responses := s.responses ++ [{ code := .delimInPayload, data := 0#32 }] }
      else
        { s with
          tx := .busy [b, 0x0D#8] 0 pol .issue
          cs := act pol
          trace := s.trace ++ [.cs (act pol)] })

/-- `TXS`: its words, its checks, and the frame of the bytes before the first `0x00` (R162). -/
def Obligations.TxsSendsUpToTheFirstNull : Prop :=
  (∀ (w : Word16) (text : List Byte) (p : Payload),
    (decodeCommand w p = .ok (.txs .dflt text) ↔ w = 0x3000#16 ∧ text = p.text) ∧
    (decodeCommand w p = .ok (.txs .inv text) ↔ w = 0x3800#16 ∧ text = p.text)) ∧
  ∀ (pol : Polarity) (sent rest : List Byte) (s : State), s.tx = .idle →
    0#8 ∉ sent → (rest = [] ∨ rest.head? = some 0#8) →
    exec (.txs pol (sent ++ rest)) s = .next (
      if s.en = false ∨ s.role = .slave then
        { s with responses := s.responses ++ [{ code := .notMaster, data := 0#32 }] }
      else if s.par.txDelim = .reject ∧ 0x0D#8 ∈ sent then
        { s with responses := s.responses ++ [{ code := .delimInPayload, data := 0#32 }] }
      else
        { s with
          tx := .busy (sent ++ [0x0D#8]) 0 pol .issue
          cs := act pol
          trace := s.trace ++ [.cs (act pol)] })

/-- `TXI`: its words, its checks in their order, and the frame of the low `W` bytes of the value, most significant
first (R163, R164). -/
def Obligations.TxiSendsTheLowBytesBigEndian : Prop :=
  (∀ (w : Word16) (n : Nat) (v : U64) (p : Payload),
    (decodeCommand w p = .ok (.txi .dflt n v) ↔
      ∃ b : Byte, n = b.toNat ∧ v = p.value ∧ w = 0x4000#16 ||| b.setWidth 16) ∧
    (decodeCommand w p = .ok (.txi .inv n v) ↔
      ∃ b : Byte, n = b.toNat ∧ v = p.value ∧ w = 0x4800#16 ||| b.setWidth 16)) ∧
  ∀ (pol : Polarity) (w : Nat) (v : U64) (bytes : List Byte) (s : State), s.tx = .idle →
    bytes = (List.range w).map (fun j => (v >>> (8 * (w - 1 - j))).setWidth 8) →
    exec (.txi pol w v) s = .next (
      if s.en = false ∨ s.role = .slave then
        { s with responses := s.responses ++ [{ code := .notMaster, data := 0#32 }] }
      else if 8 < w then
        { s with responses := s.responses ++ [{ code := .badWidth, data := 0#32 }] }
      else if s.par.txDelim = .reject ∧ 0x0D#8 ∈ bytes then
        { s with responses := s.responses ++ [{ code := .delimInPayload, data := 0#32 }] }
      else
        { s with
          tx := .busy (bytes ++ [0x0D#8]) 0 pol .issue
          cs := act pol
          trace := s.trace ++ [.cs (act pol)] })

/-- `S1` puts the next byte on the wire, and a byte gets there in no other phase (R143). -/
def Obligations.IssueStepSendsTheNextByte : Prop :=
  (∀ (s : State) (seq : List Byte) (k : Nat) (pol : Polarity) (b : Byte) (rest : List Input),
    s.par.wf → s.inputs = .hostStep :: rest → s.tx = .busy seq k pol .issue → seq[k]? = some b →
    step s = .next { s with
      inputs := rest, trace := s.trace ++ [.byte b], tx := .busy seq k pol .wait }) ∧
  ∀ (s t : State) (b : Byte), step s = .next t → t.trace = s.trace ++ [.byte b] →
    ∃ seq k pol, s.tx = .busy seq k pol .issue ∧ seq[k]? = some b ∧ t.tx = .busy seq k pol .wait

/-- `TXDONE`: its word, and the move to the next byte or to the release; outside phase `Wait` it is refused
(R144). -/
def Obligations.TxdoneMovesToTheNextByte : Prop :=
  (∀ w : Word16, decodeEvent w = .ok .txdone ↔ w = 0x2000#16) ∧
  (∀ (s : State) (seq : List Byte) (k : Nat) (pol : Polarity), s.tx = .busy seq k pol .wait →
    exec .txdone s = .next { s with
      tx := if k + 1 = seq.length then .busy seq (k + 1) pol .release else .busy seq (k + 1) pol .issue }) ∧
  ∀ s : State, (¬ ∃ seq k pol, s.tx = .busy seq k pol .wait) → exec .txdone s = .refused .txdoneOutsideWait

/-- `S3` releases the line and answers, and nothing but it and a reset makes the sequencer idle again (R145). -/
def Obligations.ReleaseStepAnswers : Prop :=
  (∀ (s : State) (seq : List Byte) (k : Nat) (pol : Polarity) (rest : List Input),
    s.par.wf → s.inputs = .hostStep :: rest → s.tx = .busy seq k pol .release →
    step s = .next { s with
      inputs := rest
      cs := inact pol
      trace := s.trace ++ [.cs (inact pol)]
      tx := .idle
      responses := s.responses ++ [{ code := .ok, data := 0#32 }] }) ∧
  ∀ s t : State, step s = .next t → s.tx ≠ .idle → t.tx = .idle →
    resetsNext s ∨ ∃ seq k pol, s.tx = .busy seq k pol .release

/-- In every interleaving, while a frame is being sent the trace ends with the frame's assert drive and exactly the
bytes issued so far: no step puts anything else between them (R150). -/
def Obligations.FrameStaysWholeOnTheWire : Prop :=
  ∀ s t : State, frameOnWire s → step s = .next t → frameOnWire t

/-- So when the frame is released, the trace ends with the whole frame between its two drives (R150). -/
def Obligations.CompletedFrameIsOnTheWire : Prop :=
  ∀ (s : State) (seq : List Byte) (k : Nat) (pol : Polarity) (rest : List Input),
    s.par.wf → frameOnWire s → Consistent s → s.inputs = .hostStep :: rest →
    s.tx = .busy seq k pol .release →
    ∃ (t : State) (before : List WireEvent), step s = .next t ∧
      t.trace = before ++ [.cs (act pol)] ++ seq.map .byte ++ [.cs (inact pol)]

/-- With a fair transport and nothing else scheduled, a frame whose first byte has not been issued is sent whole,
released and answered, within two steps a byte and one more (R11, R167; the empty schedule is log entry 2). -/
def Obligations.FairTransportCompletesAFrame : Prop :=
  ∀ (s : State) (seq : List Byte) (pol : Polarity),
    s.par.wf → s.par.transportFair = true → s.inputs = [] → seq ≠ [] → s.tx = .busy seq 0 pol .issue →
    ∃ t : State, runSteps (2 * seq.length + 1) s = .next t ∧ t.tx = .idle ∧ t.cs = inact pol ∧
      t.trace = s.trace ++ seq.map .byte ++ [.cs (inact pol)] ∧
      t.responses = s.responses ++ [{ code := .ok, data := 0#32 }]

/-- A byte whose completion never comes hangs the frame: however many steps are taken, the sequencer, the line and
the responses stay as they are (R149, R237). -/
def Obligations.NoCompletionHangsTheFrame : Prop :=
  ∀ (n : Nat) (s t : State) (seq : List Byte) (k : Nat) (pol : Polarity),
    s.tx = .busy seq k pol .wait → s.par.transportFair = false →
    (∀ i ∈ s.inputs, i ≠ .reset ∧ ∀ w, i = .event w → decodeEvent w ≠ .ok .txdone) →
    runSteps n s = .next t →
    t.tx = s.tx ∧ t.cs = s.cs ∧ t.responses = s.responses ∧ t.trace = s.trace

-- ---- Errors, transport and refusals (60_exceptions.md)

/-- An error response changes no state: when a step answers with an error code, its data is 0 and everything else is
as it was; and no error is answered while a frame is being sent (R220). -/
def Obligations.ErrorsChangeNothing : Prop :=
  ∀ (s t : State) (r : Response), step s = .next t → t.responses = s.responses ++ [r] → r.code ≠ .ok →
    r.data = 0#32 ∧ t = { s with inputs := s.inputs.tail, responses := s.responses ++ [r] } ∧ s.tx = .idle

/-- Every step gives at most one response (R70, R80) and appends at most one event to the trace (R37, R250); neither
list loses anything. That the model keeps the responses in a list, also across a reset, is its own choice (log
entries 5 and 16). -/
def Obligations.ObservationsOnlyGrow : Prop :=
  ∀ s t : State, step s = .next t →
    (t.responses = s.responses ∨ ∃ r, t.responses = s.responses ++ [r]) ∧
    (t.trace = s.trace ∨ ∃ e, t.trace = s.trace ++ [e])

/-- The inputs the spec has a model refuse are refused (R238). -/
def Obligations.ForbiddenInputsAreRefused : Prop :=
  ∀ s : State,
    (¬ (1 ≤ s.par.capacity ∧ s.par.capacity ≤ 255) → ∃ r, step s = .refused r) ∧
    (∀ w rest r, s.inputs = .event w :: rest → decodeEvent w = .error r → ∃ q, step s = .refused q) ∧
    ((¬ ∃ seq k pol, s.tx = .busy seq k pol .wait) → ∃ r, exec .txdone s = .refused r) ∧
    (∀ b, s.en = false ∨ s.role = .master ∨ s.rxIn = [] → ∃ r, exec (.rxb b) s = .refused r) ∧
    (∀ w p rest, s.inputs = .command w p :: rest → s.tx ≠ .idle → ∃ r, step s = .refused r)

/-- `ARRIVE` appends the byte while reception is enabled, and discards it otherwise (R233). -/
def Obligations.ArrivalsWaitInOrder : Prop :=
  ∀ (s : State) (b : Byte) (rest : List Input), s.par.wf → s.inputs = .arrive b :: rest →
    step s = .next { s with
      inputs := rest
      rxIn := if s.en = true ∧ s.role = .slave then s.rxIn ++ [b] else s.rxIn }

/-- The bytes that wait are delivered in order and without loss: short of a reset, a step leaves them as they are,
delivers the first to the framer, or adds an arrival at the end (R36, R233). -/
def Obligations.PendingBytesAreDeliveredInOrder : Prop :=
  ∀ s t : State, step s = .next t → ¬ resetsNext s →
    t.rxIn = s.rxIn ∨ (∃ b, nextInstr s = some (.rxb b) ∧ s.rxIn = b :: t.rxIn) ∨
      (∃ b, s.inputs.head? = some (.arrive b) ∧ s.en = true ∧ s.role = .slave ∧ t.rxIn = s.rxIn ++ [b])

/-- On a matched link a byte crosses once and in order: after `S1` puts it on the wire it arrives at the slave, and its
completion finds it arrived, also where nothing had it arrive before (R234; the link is log entry 10). -/
def Obligations.LinkCarriesTheIssuedByte : Prop :=
  ∀ (l : Link) (seq : List Byte) (k : Nat) (pol : Polarity) (b : Byte),
    l.master.par.wf → l.slave.par.wf → linkMatched l = true → l.onWire = none →
    l.master.tx = .busy seq k pol .issue → seq[k]? = some b →
    ∃ l1 l2 : Link,
      linkStep (.onMaster .hostStep) l = .next l1 ∧ l1.slave = l.slave ∧ l1.onWire = some b ∧
      (∀ c : Byte, linkStep (.onSlave (.arrive c)) l1 = linkStep .carry l1) ∧ linkStep .carry l1 = .next l2 ∧ l2.master = l1.master ∧ l2.onWire = none ∧
      l2.slave = { l.slave with rxIn := l.slave.rxIn ++ [b] } ∧
      linkStep .carry l2 = .next l2 ∧
      ∃ l3 : Link, linkStep (.onMaster (.event 0x2000#16)) l2 = .next l3 ∧ l3.slave = l2.slave ∧
        l3.onWire = none ∧ linkStep (.onMaster (.event 0x2000#16)) l1 = .next l3

-- ---- Reset (70_reset_and_hazards.md, 10_state.md)

/-- Right after power-on every state element has its value of the reset table and the trace is one drive, for every
instance; `State.reset` is the instance with the default parameters (R39; R5 to R11 for the defaults). -/
def Obligations.ResetStateIsTheTable : Prop :=
  (∀ p : Params, atResetValues (State.resetWith p) ∧ (State.resetWith p).trace = [.cs p.csReset] ∧
    (State.resetWith p).par = p) ∧
  State.reset.par.capacity = 51 ∧ State.reset.par.oversize = .discard ∧ State.reset.par.txDelim = .reject ∧
    State.reset.cs = true ∧ State.reset.par.transportFair = false

/-- A reset of a running block, also during a transmit, gives every element its reset value, appends the drive of the
reset level to a trace that keeps what it held, and gives no response (R39, R250 to R252). That the responses given
before and the rest of the schedule stay is the model's choice (log entry 16). -/
def Obligations.ResetAbandonsEverything : Prop :=
  ∀ (s : State) (rest : List Input), s.par.wf → s.inputs = .reset :: rest →
    ∃ t : State, step s = .next t ∧ atResetValues t ∧ t.par = s.par ∧
      t.trace = s.trace ++ [.cs s.par.csReset] ∧ t.responses = s.responses ∧ t.inputs = rest

-- ---- The step

/-- A command that decodes runs: the step is `exec` of the instruction in the state the schedule entry has been taken
from, and the same for an event (R58, R70, R82). -/
def Obligations.StepRunsTheDecodedInstruction : Prop :=
  ∀ (s : State) (rest : List Input) (i : Instr), s.par.wf →
    (∀ w p, s.inputs = .command w p :: rest → decodeCommand w p = .ok i →
      step s = exec i { s with inputs := rest }) ∧
    (∀ w, s.inputs = .event w :: rest → decodeEvent w = .ok i → step s = exec i { s with inputs := rest })

-- ---- The whole machine

/-- The invariants of R38 are kept by every step. -/
def Obligations.ConsistencyIsKept : Prop :=
  ∀ s t : State, Consistent s → step s = .next t → Consistent t

/-- The invariants of R38 hold after reset. -/
def Obligations.ResetIsConsistent : Prop :=
  ∀ p : Params, Consistent (State.resetWith p)

/-- The buffers keep their canonical form, with no cell outside `[0, L)` (R50; the form is log entry 6). -/
def Obligations.BuffersStayCanonical : Prop :=
  ∀ s t : State, BuffersOk s → step s = .next t → BuffersOk t

/-- The buffers are in that form after reset. -/
def Obligations.ResetBuffersAreCanonical : Prop :=
  ∀ p : Params, BuffersOk (State.resetWith p)

/-- From a state that meets the invariants of R38 no run ends in a fault: no rule moves a byte outside `[0, L)` or
sends a byte outside the frame (R14). -/
def Obligations.ConsistentStatesNeverFault : Prop :=
  ∀ s : State, Consistent s → SafeRun s

/-- The level of the select line is the last one the trace records (R16, R34). -/
def Obligations.TraceEndsAtTheLevelOfTheLine : Prop :=
  ∀ s t : State, lastLevel s.trace = some s.cs → step s = .next t → lastLevel t.trace = some t.cs

/-- No step changes the parameters of the instance (00_scope.md section 3). -/
def Obligations.ParametersNeverChange : Prop :=
  ∀ s t : State, step s = .next t → t.par = s.par

/-- Reset writes every state element, and in every other step each element changes only by the writers that R40 and
the element's own rule give it: `Slot`, `SlotLen` and the setting of `Ready` at delimiters alone (R28 to R30), `CS` at
`S0` and `S3` alone (R34). -/
def Obligations.EachElementHasItsWriters : Prop :=
  ∀ s : State,
    (resetsNext s → s.par.wf → ∃ t, step s = .next t ∧ atResetValues t) ∧
    ∀ t : State, step s = .next t → ¬ resetsNext s →
      ((t.stg ≠ s.stg ∨ t.rxIdx ≠ s.rxIdx ∨ t.rxOvf ≠ s.rxOvf) → framerMovesNext s) ∧
      (s.ready = false → t.ready = true → nextInstr s = some (.rxb 0x0D#8)) ∧
      (s.ready = true → t.ready = false → nextInstr s = some .take) ∧
      ((t.slot ≠ s.slot ∨ t.slotLen ≠ s.slotLen) →
        nextInstr s = some (.rxb 0x0D#8) ∨ nextInstr s = some .take) ∧
      (t.stb ≠ s.stb → nextInstr s = some .take) ∧
      ((t.en ≠ s.en ∨ t.role ≠ s.role ∨ t.bitord ≠ s.bitord ∨ t.mode ≠ s.mode ∨ t.div ≠ s.div ∨ t.x2 ≠ s.x2) →
        ∃ en x2 div mode bitord role, nextInstr s = some (.cfg en x2 div mode bitord role)) ∧
      (s.ovrCnt.toNat < t.ovrCnt.toNat → nextInstr s = some (.rxb 0x0D#8)) ∧
      (s.ovszCnt.toNat < t.ovszCnt.toNat → framerMovesNext s) ∧
      (t.ovrCnt.toNat < s.ovrCnt.toNat → ∃ ovsz, nextInstr s = some (.ackerr true ovsz)) ∧
      (t.ovszCnt.toNat < s.ovszCnt.toNat → ∃ ovr, nextInstr s = some (.ackerr ovr true)) ∧
      (t.cs ≠ s.cs → transmitIssuedNext s ∨
        (hostMovesNext s ∧ ∃ seq k pol, s.tx = .busy seq k pol .release)) ∧
      (t.tx ≠ s.tx → transmitIssuedNext s ∨ nextInstr s = some .txdone ∨ hostMovesNext s)

/-- `X2`, `DIV`, `MODE` and `BITORD` change no rule: two states that differ in nothing else step to states that differ
in nothing else (R184). -/
def Obligations.TransportFieldsChangeNoRule : Prop :=
  ∀ s t : State, withoutTransportFields s = withoutTransportFields t →
    onNext withoutTransportFields (step s) = onNext withoutTransportFields (step t)

/-- The cells no rule reads cannot be observed: two states that differ in them alone take the same step, and differ in
such cells alone after it (R25, R28; 93_implementation_defined.md U3). -/
def Obligations.StaleCellsAreNeverObserved : Prop :=
  ∀ s t s' : State, Consistent s → BuffersOk s → BuffersOk t → sameButStale s t → step s = .next s' →
    ∃ t', step t = .next t' ∧ sameButStale s' t'

-- ---- Host-side reference functions and the assembler

/-- Round trip of the integer encoding (R202, which the spec derives from R164 and R200). -/
def Obligations.IntegerRoundTrip : Prop :=
  ∀ (n : Nat) (v : U64), n ≤ 8 → v.toNat < 2 ^ (8 * n) → bytesToU64 (beBytes v n) = v

/-- With more than 8 bytes only the last 8 count (R200). -/
def Obligations.OnlyTheLastEightBytesCount : Prop :=
  ∀ (early late : List Byte), late.length = 8 → bytesToU64 (early ++ late) = bytesToU64 late

/-- The three-way compare has the sign of the first difference of the two operands read as null-terminated, and is 0
when there is none (R201). Only its sign is stated (93_implementation_defined.md U5). -/
def Obligations.CompareSeesTheFirstDifference : Prop :=
  ∀ (same as ts : List Byte) (a t : Byte), 0#8 ∉ same → a ≠ t →
    (bytesEqualString (same ++ a :: as) (same ++ t :: ts)).sign = (if a.toNat < t.toNat then -1 else 1) ∧
    bytesEqualString (same ++ 0#8 :: as) (same ++ 0#8 :: ts) = 0 ∧
    bytesEqualString same same = 0 ∧
    bytesEqualString (same ++ 0#8 :: as) same = 0 ∧ bytesEqualString same (same ++ 0#8 :: ts) = 0 ∧
    (a ≠ 0#8 → (bytesEqualString (same ++ a :: as) same).sign = 1 ∧
      (bytesEqualString same (same ++ a :: as)).sign = -1)

/-- A line of the assembler stands for an instruction that has an encoding, which its port reads back (R85 to R87). -/
def Obligations.AssembledLinesHaveEncodings : Prop :=
  ∀ (line : String) (i : Instr), assemble line = some i → i.wf = true ∧ decode (encode i) = .ok i

-- ---- The link between devices whose settings differ (60_exceptions.md R234)

/-- On a link that does not meet R234's condition, or whose clock settings differ, the slave may receive any byte at
any time, and a byte the master sends may complete without arriving: any bytes, any number of them (R55, R234;
93_implementation_defined.md U7). On a link that meets it, nothing arrives but the byte on the wire, and nothing at all when there is none (log
entry 10). -/
def Obligations.MismatchedLinkDeliversAnyBytes : Prop :=
  ∀ l : Link, l.master.par.wf → l.slave.par.wf → l.slave.role = .slave →
    (l.master.en = false ∨ l.slave.en = false ∨ l.master.role = .slave ∨ l.master.bitord ≠ l.slave.bitord ∨
        l.master.mode ≠ l.slave.mode ∨ l.master.div ≠ l.slave.div ∨ l.master.x2 ≠ l.slave.x2 ∨
        l.master.cs ≠ l.selected →
      (∀ b : Byte, linkStep (.onSlave (.arrive b)) l = .next { l with
        slave := { l.slave with rxIn := if l.slave.en then l.slave.rxIn ++ [b] else l.slave.rxIn } }) ∧
      ∀ seq k pol, l.master.tx = .busy seq k pol .wait →
        ∃ m : Link, linkStep (.onMaster (.event 0x2000#16)) l = .next m ∧ m.slave = l.slave) ∧
    (linkMatched l = true →
      (l.onWire = none → ∀ b : Byte, linkStep (.onSlave (.arrive b)) l = .next l) ∧
      ∀ c, l.onWire = some c → ∀ b : Byte, linkStep (.onSlave (.arrive b)) l = .next { l with
        slave := { l.slave with rxIn := l.slave.rxIn ++ [c] }, onWire := none })
end

