-- ==== Sys2Proof/Laws/Decode.lean ====
section
/-! SUPPORT. The fields of an encoded word are what was encoded, and a word is its fields put together. -/

namespace Sys2Proof

@[simp] theorem opField_commandWord (op : BitVec 4) (pol : BitVec 1) (imm : Byte) :
    opField (commandWord op pol imm) = op := by
  apply BitVec.eq_of_getLsbD_eq
  intro i hi
  simp only [opField, commandWord, BitVec.getLsbD_extractLsb', BitVec.getLsbD_append, hi, decide_true,
    Bool.true_and]
  interval_cases i <;> simp

@[simp] theorem polField_commandWord (op : BitVec 4) (pol : BitVec 1) (imm : Byte) :
    polField (commandWord op pol imm) = pol[0] := by
  rw [polField, commandWord]
  simp only [BitVec.getLsbD_append]
  simp

@[simp] theorem rsvField_commandWord (op : BitVec 4) (pol : BitVec 1) (imm : Byte) :
    rsvField (commandWord op pol imm) = 0#3 := by
  apply BitVec.eq_of_getLsbD_eq
  intro i hi
  simp only [rsvField, commandWord, BitVec.getLsbD_extractLsb', BitVec.getLsbD_append, hi, decide_true,
    Bool.true_and]
  interval_cases i <;> simp

@[simp] theorem immField_commandWord (op : BitVec 4) (pol : BitVec 1) (imm : Byte) :
    immField (commandWord op pol imm) = imm := by
  apply BitVec.eq_of_getLsbD_eq
  intro i hi
  simp only [immField, commandWord, BitVec.getLsbD_extractLsb', BitVec.getLsbD_append, hi, decide_true,
    Bool.true_and]
  interval_cases i <;> simp

@[simp] theorem evtField_eventWord (evt : BitVec 4) (data : Byte) : evtField (eventWord evt data) = evt := by
  apply BitVec.eq_of_getLsbD_eq
  intro i hi
  simp only [evtField, eventWord, BitVec.getLsbD_extractLsb', BitVec.getLsbD_append, hi, decide_true,
    Bool.true_and]
  interval_cases i <;> simp

@[simp] theorem ersvField_eventWord (evt : BitVec 4) (data : Byte) : ersvField (eventWord evt data) = 0#4 := by
  apply BitVec.eq_of_getLsbD_eq
  intro i hi
  simp only [ersvField, eventWord, BitVec.getLsbD_extractLsb', BitVec.getLsbD_append, hi, decide_true,
    Bool.true_and]
  interval_cases i <;> simp

@[simp] theorem edataField_eventWord (evt : BitVec 4) (data : Byte) :
    edataField (eventWord evt data) = data := by
  apply BitVec.eq_of_getLsbD_eq
  intro i hi
  simp only [edataField, eventWord, BitVec.getLsbD_extractLsb', BitVec.getLsbD_append, hi, decide_true,
    Bool.true_and]
  interval_cases i <;> simp

/-- A command word with `RSV = 0` is its fields put together. -/
theorem commandWord_of_fields {w : Word16} (h : rsvField w = 0#3) :
    commandWord (opField w) (BitVec.ofBool (polField w)) (immField w) = w := by
  apply BitVec.eq_of_getLsbD_eq
  intro i hi
  have h0 : ∀ j, j < 3 → w.getLsbD (8 + j) = false := fun j hj => by
    have := congrArg (fun x => x.getLsbD j) h
    simpa [rsvField, hj] using this
  simp only [commandWord, BitVec.getLsbD_append, opField, polField, immField, BitVec.getLsbD_extractLsb']
  have h8 := h0 0 (by omega); have h9 := h0 1 (by omega); have h10 := h0 2 (by omega)
  interval_cases i <;> simp_all

/-- An event word with `ERSV = 0` is its fields put together. -/
theorem eventWord_of_fields {w : Word16} (h : ersvField w = 0#4) :
    eventWord (evtField w) (edataField w) = w := by
  apply BitVec.eq_of_getLsbD_eq
  intro i hi
  have h0 : ∀ j, j < 4 → w.getLsbD (8 + j) = false := fun j hj => by
    have := congrArg (fun x => x.getLsbD j) h
    simpa [ersvField, hj] using this
  simp only [eventWord, BitVec.getLsbD_append, evtField, edataField, BitVec.getLsbD_extractLsb']
  have h8 := h0 0 (by omega); have h9 := h0 1 (by omega); have h10 := h0 2 (by omega); have h11 := h0 3 (by omega)
  interval_cases i <;> simp_all

/-- The number of two fields side by side. -/
theorem append_toNat {m n : Nat} (x : BitVec m) (y : BitVec n) :
    (x ++ y).toNat = x.toNat * 2 ^ n + y.toNat := by
  rw [BitVec.toNat_append, ← Nat.shiftLeft_add_eq_or_of_lt y.isLt, Nat.shiftLeft_eq]

/-- A command word as a number. -/
theorem commandWord_toNat (op : BitVec 4) (pol : BitVec 1) (imm : Byte) :
    (commandWord op pol imm).toNat = op.toNat * 4096 + pol.toNat * 2048 + imm.toNat := by
  simp only [commandWord, append_toNat]
  simp
  omega

/-- An event word as a number. -/
theorem eventWord_toNat (evt : BitVec 4) (data : Byte) :
    (eventWord evt data).toNat = evt.toNat * 4096 + data.toNat := by
  simp only [eventWord, append_toNat]
  simp
  omega

/-- The spec's way of writing a command word, an opcode and polarity part with the immediate or-ed in. -/
theorem or_imm_eq_commandWord (op : BitVec 4) (pol : BitVec 1) (imm : Byte) :
    commandWord op pol 0#8 ||| imm.setWidth 16 = commandWord op pol imm := by
  apply BitVec.eq_of_getLsbD_eq
  intro i hi
  simp only [commandWord, BitVec.getLsbD_append, BitVec.getLsbD_or, BitVec.getLsbD_setWidth]
  interval_cases i <;> simp

/-- The same for an event word. -/
theorem or_data_eq_eventWord (evt : BitVec 4) (data : Byte) :
    eventWord evt 0#8 ||| data.setWidth 16 = eventWord evt data := by
  apply BitVec.eq_of_getLsbD_eq
  intro i hi
  simp only [eventWord, BitVec.getLsbD_append, BitVec.getLsbD_or, BitVec.getLsbD_setWidth]
  interval_cases i <;> simp

@[simp] theorem polarityOf_bit (pol : Polarity) : polarityOf (polarityBit pol)[0] = pol := by
  cases pol <;> rfl

@[simp] theorem bitOrderOf_bit (o : BitOrder) : bitOrderOf (bitOrderBit o)[0] = o := by
  cases o <;> rfl

@[simp] theorem roleOf_bit (r : Role) : roleOf (roleBit r)[0] = r := by
  cases r <;> rfl

/-- The fields of a `CFG` immediate. -/
theorem cfgOfImm_cfgImm (en x2 : Bool) (div mode : BitVec 2) (bitord : BitOrder) (role : Role) :
    cfgOfImm (cfgImm en x2 div mode bitord role) = .cfg en x2 div mode bitord role := by
  revert div mode
  cases en <;> cases x2 <;> cases bitord <;> cases role <;> decide

/-- A `CFG` immediate is its fields put together. -/
theorem cfgImm_of_fields (imm : Byte) :
    cfgImm (imm.getLsbD 7) (imm.getLsbD 6) (imm.extractLsb' 4 2) (imm.extractLsb' 2 2)
      (bitOrderOf (imm.getLsbD 1)) (roleOf (imm.getLsbD 0)) = imm := by
  revert imm; decide

theorem polarityBit_of (b : Bool) : polarityBit (polarityOf b) = BitVec.ofBool b := by cases b <;> rfl

theorem eq_of_ok {ε α : Type} {a i : α} : (Except.ok a : Except ε α) = .ok i ↔ i = a :=
  ⟨fun h => by cases h; rfl, fun h => by rw [h]⟩

/-- What the decoder of the host command port accepts, row by row. -/
theorem decodeCommand_eq_ok {w : Word16} {p : Payload} {i : Instr} :
    decodeCommand w p = .ok i ↔ rsvField w = 0#3 ∧
      ((opField w = 1#4 ∧ polField w = false ∧ i = cfgOfImm (immField w)) ∨
        (opField w = 2#4 ∧ i = .txb (polarityOf (polField w)) (immField w)) ∨
        (opField w = 3#4 ∧ immField w = 0#8 ∧ i = .txs (polarityOf (polField w)) p.text) ∨
        (opField w = 4#4 ∧ i = .txi (polarityOf (polField w)) (immField w).toNat p.value) ∨
        (opField w = 5#4 ∧ polField w = false ∧ immField w = 0#8 ∧ i = .take) ∨
        (opField w = 6#4 ∧ polField w = false ∧ i = .rdsb (immField w).toNat) ∨
        (opField w = 7#4 ∧ polField w = false ∧ immField w = 0#8 ∧ i = .rdst) ∨
        (opField w = 8#4 ∧ polField w = false ∧ (immField w).extractLsb' 2 6 = 0#6 ∧
          i = .ackerr ((immField w).getLsbD 0) ((immField w).getLsbD 1))) := by
  unfold decodeCommand
  generalize opField w = op
  generalize polField w = pol
  generalize immField w = imm
  by_cases hr : rsvField w = 0#3
  swap
  · simp [hr]
  have hop : op = 0#4 ∨ op = 1#4 ∨ op = 2#4 ∨ op = 3#4 ∨ op = 4#4 ∨ op = 5#4 ∨ op = 6#4 ∨ op = 7#4 ∨
      op = 8#4 ∨ op = 9#4 ∨ op = 10#4 ∨ op = 11#4 ∨ op = 12#4 ∨ op = 13#4 ∨ op = 14#4 ∨ op = 15#4 := by
    revert op; decide
  by_cases h0 : imm = 0#8 <;> by_cases h2 : imm.extractLsb' 2 6 = 0#6 <;>
    rcases hop with h | h | h | h | h | h | h | h | h | h | h | h | h | h | h | h <;> subst h <;>
    cases pol <;> simp [hr, h0, h2, eq_of_ok, -Except.ok.injEq]

/-- What the decoder of the transport event port accepts. -/
theorem decodeEvent_eq_ok {w : Word16} {i : Instr} :
    decodeEvent w = .ok i ↔ ersvField w = 0#4 ∧
      ((evtField w = 1#4 ∧ i = .rxb (edataField w)) ∨
        (evtField w = 2#4 ∧ edataField w = 0#8 ∧ i = .txdone)) := by
  unfold decodeEvent
  generalize evtField w = evt
  generalize edataField w = data
  by_cases hr : ersvField w = 0#4
  swap
  · simp [hr]
  have hevt : evt = 0#4 ∨ evt = 1#4 ∨ evt = 2#4 ∨ evt = 3#4 ∨ evt = 4#4 ∨ evt = 5#4 ∨ evt = 6#4 ∨
      evt = 7#4 ∨ evt = 8#4 ∨ evt = 9#4 ∨ evt = 10#4 ∨ evt = 11#4 ∨ evt = 12#4 ∨ evt = 13#4 ∨
      evt = 14#4 ∨ evt = 15#4 := by
    revert evt; decide
  by_cases h0 : data = 0#8 <;>
    rcases hevt with h | h | h | h | h | h | h | h | h | h | h | h | h | h | h | h <;> subst h <;>
    simp [hr, h0, eq_of_ok, -Except.ok.injEq]

end Sys2Proof
end

