-- ==== Sys2Proof/Laws/Memory.lean ====
section
/-! SUPPORT. The byte buffers: what a read gives after a write, a copy and a clearing, and that each of these
keeps the canonical form and stays inside the capacity. -/

namespace Sys2Proof.Machine

namespace Memory

@[simp] theorem read_nil (i : Nat) : read [] i = 0#8 := rfl

@[simp] theorem read_cons (a : Nat) (v : Byte) (m : Memory) (i : Nat) :
    read ((a, v) :: m) i = if a = i then v else read m i := rfl

/-- A cell below every listed index reads as `0x00`. -/
theorem read_of_all_gt {m : Memory} {i : Nat} (h : ∀ c ∈ m, i < c.1) : m.read i = 0#8 := by
  induction m with
  | nil => rfl
  | cons c m ih =>
    obtain ⟨a, v⟩ := c
    have ha : i < a := h (a, v) (by simp)
    rw [read_cons, if_neg (by omega)]
    exact ih fun d hd => h d (by simp [hd])

/-- The cells of a buffer after a write come from the buffer, or are the written one. -/
theorem mem_write {m : Memory} {i : Nat} {v : Byte} {c : Host.Cell} (h : c ∈ m.write i v) :
    c ∈ m ∨ (c = (i, v) ∧ v ≠ 0#8) := by
  induction m with
  | nil =>
    by_cases hv : v = 0#8 <;> simp_all [write]
  | cons d m ih =>
    obtain ⟨a, x⟩ := d
    rw [write] at h
    split at h
    · split at h
      · exact .inl h
      · rcases List.mem_cons.1 h with h | h
        · exact .inr ⟨h, ‹_›⟩
        · exact .inl h
    · split at h
      · split at h
        · exact .inl (List.mem_cons_of_mem _ h)
        · rcases List.mem_cons.1 h with h | h
          · exact .inr ⟨h, ‹_›⟩
          · exact .inl (List.mem_cons_of_mem _ h)
      · rcases List.mem_cons.1 h with h | h
        · exact .inl (h ▸ List.mem_cons_self)
        · rcases ih h with h | h
          · exact .inl (List.mem_cons_of_mem _ h)
          · exact .inr h

/-- A write keeps the canonical form. -/
theorem wf_write {m : Memory} (h : m.wf) (i : Nat) (v : Byte) : (m.write i v).wf := by
  refine ⟨?_, fun c hc => ?_⟩
  · induction m with
    | nil => by_cases hv : v = 0#8 <;> simp [write, hv]
    | cons d m ih =>
      obtain ⟨a, x⟩ := d
      have hp := List.pairwise_cons.1 h.1
      have hm : wf m := ⟨hp.2, fun c hc => h.2 c (List.mem_cons_of_mem _ hc)⟩
      rw [write]
      split
      · rename_i hlt
        split
        · exact h.1
        · refine List.pairwise_cons.2 ⟨fun c hc => ?_, h.1⟩
          rcases List.mem_cons.1 hc with hc | hc
          · rw [hc]; exact hlt
          · exact Nat.lt_trans hlt (hp.1 c hc)
      · split
        · rename_i heq
          split
          · exact hp.2
          · exact List.pairwise_cons.2 ⟨fun c hc => heq ▸ hp.1 c hc, hp.2⟩
        · refine List.pairwise_cons.2 ⟨fun c hc => ?_, ih hm⟩
          rcases mem_write hc with hc | hc
          · exact hp.1 c hc
          · rw [hc.1]; show a < i; omega
  · rcases mem_write hc with hc | hc
    · exact h.2 c hc
    · rw [hc.1]; exact hc.2

/-- A write inside the capacity keeps every cell inside it. -/
theorem inside_write {L : Nat} {m : Memory} (h : m.inside L) {i : Nat} (hi : i < L) (v : Byte) :
    (m.write i v).inside L := fun c hc => by
  rcases mem_write hc with hc | hc
  · exact h c hc
  · rw [hc.1]; exact hi

/-- Read after write: the written cell gives the written byte, and every other cell is as it was. -/
theorem read_write {m : Memory} (h : m.wf) (i j : Nat) (v : Byte) :
    (m.write i v).read j = if i = j then v else m.read j := by
  induction m with
  | nil => by_cases hv : v = 0#8 <;> by_cases hij : i = j <;> simp [write, hv, hij]
  | cons d m ih =>
    obtain ⟨a, x⟩ := d
    have hp := List.pairwise_cons.1 h.1
    have hm : wf m := ⟨hp.2, fun c hc => h.2 c (List.mem_cons_of_mem _ hc)⟩
    rw [write]
    split
    · rename_i hlt
      split
      · rename_i hv
        by_cases hij : i = j
        · subst hij
          rw [if_pos rfl, hv, read_cons, if_neg (by omega)]
          exact read_of_all_gt fun c hc => Nat.lt_trans hlt (hp.1 c hc)
        · rw [if_neg hij]
      · rw [read_cons]
    · split
      · rename_i heq
        split
        · rename_i hv
          by_cases hij : i = j
          · subst hij
            rw [if_pos rfl, hv]
            exact read_of_all_gt fun c hc => heq ▸ hp.1 c hc
          · rw [if_neg hij, read_cons, if_neg (by omega)]
        · rw [read_cons, read_cons]
          by_cases hij : i = j
          · rw [if_pos hij, if_pos hij]
          · rw [if_neg hij, if_neg hij, if_neg (by omega)]
      · rw [read_cons, read_cons, ih hm]
        by_cases haj : a = j
        · rw [if_pos haj, if_pos haj, if_neg (by omega)]
        · rw [if_neg haj, if_neg haj]

/-- A copy keeps the canonical form of the buffer copied into. -/
theorem wf_copy {dst : Memory} (h : dst.wf) (src : Memory) (n : Nat) : (dst.copy src n).wf := by
  induction n with
  | zero => exact h
  | succ n ih => exact wf_write ih n _

/-- A copy inside the capacity keeps every cell inside it. -/
theorem inside_copy {L : Nat} {dst : Memory} (h : dst.inside L) (src : Memory) {n : Nat} (hn : n ≤ L) :
    (dst.copy src n).inside L := by
  induction n with
  | zero => exact h
  | succ n ih => exact inside_write (ih (by omega)) (by omega) _

/-- After a copy of `n` cells the first `n` read as the source, and every other cell as before. -/
theorem read_copy {dst : Memory} (h : dst.wf) (src : Memory) (n j : Nat) :
    (dst.copy src n).read j = if j < n then src.read j else dst.read j := by
  induction n with
  | zero => simp [copy]
  | succ n ih =>
    rw [copy, read_write (wf_copy h src n), ih]
    by_cases hj : n = j
    · subst hj; simp
    · rw [if_neg hj]; congr 1; simp only [eq_iff_iff]; omega

/-- A clearing keeps the canonical form. -/
theorem wf_zeroFrom {m : Memory} (h : m.wf) (lo n : Nat) : (m.zeroFrom lo n).wf := by
  induction n with
  | zero => exact h
  | succ n ih => exact wf_write ih _ _

/-- A clearing lists no new cell. -/
theorem inside_zeroFrom {L : Nat} {m : Memory} (h : m.inside L) (lo n : Nat) :
    (m.zeroFrom lo n).inside L := by
  induction n with
  | zero => exact h
  | succ n ih =>
    intro c hc
    rcases mem_write hc with hc | hc
    · exact ih c hc
    · exact absurd rfl hc.2

/-- After a clearing of `n` cells from `lo` on those read `0x00`, and every other cell as before. -/
theorem read_zeroFrom {m : Memory} (h : m.wf) (lo n j : Nat) :
    (m.zeroFrom lo n).read j = if lo ≤ j ∧ j < lo + n then 0#8 else m.read j := by
  induction n with
  | zero => rw [zeroFrom, if_neg (by omega)]
  | succ n ih =>
    rw [zeroFrom, read_write (wf_zeroFrom h lo n), ih]
    by_cases hj : lo + n = j
    · rw [if_pos hj, if_pos (by omega)]
    · rw [if_neg hj]; congr 1; simp only [eq_iff_iff]; omega

/-- Two sources that read the same on the copied cells give the same buffer. -/
theorem copy_congr (dst : Memory) {src src' : Memory} {n : Nat}
    (h : ∀ i, i < n → src'.read i = src.read i) : dst.copy src' n = dst.copy src n := by
  induction n with
  | zero => rfl
  | succ n ih => rw [copy, copy, ih fun i hi => h i (by omega), h n (by omega)]

/-- Two buffers in canonical form with the same cells are the same buffer. -/
theorem ext_read {m m' : Memory} (h : m.wf) (h' : m'.wf) (hr : ∀ i, m.read i = m'.read i) : m = m' := by
  induction m generalizing m' with
  | nil =>
    cases m' with
    | nil => rfl
    | cons c m' =>
      have := hr c.1
      rw [show c = (c.1, c.2) from rfl, read_cons, if_pos rfl] at this
      exact absurd this.symm (h'.2 c (by simp))
  | cons c m ih =>
    have hp := List.pairwise_cons.1 h.1
    have hm : wf m := ⟨hp.2, fun d hd => h.2 d (List.mem_cons_of_mem _ hd)⟩
    have hc : read (c :: m) c.1 = c.2 := by
      rw [show c = (c.1, c.2) from rfl, read_cons, if_pos rfl]
    cases m' with
    | nil => exact absurd ((hc.symm.trans (hr c.1)).trans rfl) (h.2 c (by simp))
    | cons c' m' =>
      have hp' := List.pairwise_cons.1 h'.1
      have hm' : wf m' := ⟨hp'.2, fun d hd => h'.2 d (List.mem_cons_of_mem _ hd)⟩
      have hc' : read (c' :: m') c'.1 = c'.2 := by
        rw [show c' = (c'.1, c'.2) from rfl, read_cons, if_pos rfl]
      have hlt : ¬ c.1 < c'.1 := fun hlt => by
        refine h.2 c (by simp) (hc.symm.trans ((hr c.1).trans (read_of_all_gt fun d hd => ?_)))
        rcases List.mem_cons.1 hd with hd | hd
        · rw [hd]; exact hlt
        · exact Nat.lt_trans hlt (hp'.1 d hd)
      have hgt : ¬ c'.1 < c.1 := fun hgt => by
        refine h'.2 c' (by simp) (hc'.symm.trans ((hr c'.1).symm.trans (read_of_all_gt fun d hd => ?_)))
        rcases List.mem_cons.1 hd with hd | hd
        · rw [hd]; exact hgt
        · exact Nat.lt_trans hgt (hp.1 d hd)
      have ha : c.1 = c'.1 := by omega
      have hv : c.2 = c'.2 := by rw [← hc, ← hc', ← ha]; exact hr c.1
      have hcc : c = c' := Prod.ext ha hv
      subst hcc
      congr 1
      refine ih hm hm' fun i => ?_
      have := hr i
      rw [show c = (c.1, c.2) from rfl, read_cons, read_cons] at this
      by_cases hi : c.1 = i
      · subst hi
        rw [read_of_all_gt hp.1, read_of_all_gt hp'.1]
      · rwa [if_neg hi, if_neg hi] at this

end Memory

end Sys2Proof.Machine
end

