-- ==== Sys2Proof/Laws/State.lean ====
section
/-! SUPPORT. What each update of the state does to each field, one equation a field: proofs over the step cite
these and never unfold a record update. -/

namespace Sys2Proof.Machine

section respond
variable (c : RespCode) (d : Word32) (s : State)

@[simp] theorem respond_par : (respond c d s).par = s.par := rfl
@[simp] theorem respond_en : (respond c d s).en = s.en := rfl
@[simp] theorem respond_role : (respond c d s).role = s.role := rfl
@[simp] theorem respond_bitord : (respond c d s).bitord = s.bitord := rfl
@[simp] theorem respond_mode : (respond c d s).mode = s.mode := rfl
@[simp] theorem respond_div : (respond c d s).div = s.div := rfl
@[simp] theorem respond_x2 : (respond c d s).x2 = s.x2 := rfl
@[simp] theorem respond_stg : (respond c d s).stg = s.stg := rfl
@[simp] theorem respond_rxIdx : (respond c d s).rxIdx = s.rxIdx := rfl
@[simp] theorem respond_rxOvf : (respond c d s).rxOvf = s.rxOvf := rfl
@[simp] theorem respond_slot : (respond c d s).slot = s.slot := rfl
@[simp] theorem respond_slotLen : (respond c d s).slotLen = s.slotLen := rfl
@[simp] theorem respond_ready : (respond c d s).ready = s.ready := rfl
@[simp] theorem respond_stb : (respond c d s).stb = s.stb := rfl
@[simp] theorem respond_ovrCnt : (respond c d s).ovrCnt = s.ovrCnt := rfl
@[simp] theorem respond_ovszCnt : (respond c d s).ovszCnt = s.ovszCnt := rfl
@[simp] theorem respond_cs : (respond c d s).cs = s.cs := rfl
@[simp] theorem respond_tx : (respond c d s).tx = s.tx := rfl
@[simp] theorem respond_rxIn : (respond c d s).rxIn = s.rxIn := rfl
@[simp] theorem respond_trace : (respond c d s).trace = s.trace := rfl
@[simp] theorem respond_responses :
    (respond c d s).responses = s.responses ++ [{ code := c, data := d }] := rfl
@[simp] theorem respond_inputs : (respond c d s).inputs = s.inputs := rfl

end respond

section emit
variable (e : WireEvent) (s : State)

@[simp] theorem emit_par : (emit e s).par = s.par := rfl
@[simp] theorem emit_en : (emit e s).en = s.en := rfl
@[simp] theorem emit_role : (emit e s).role = s.role := rfl
@[simp] theorem emit_bitord : (emit e s).bitord = s.bitord := rfl
@[simp] theorem emit_mode : (emit e s).mode = s.mode := rfl
@[simp] theorem emit_div : (emit e s).div = s.div := rfl
@[simp] theorem emit_x2 : (emit e s).x2 = s.x2 := rfl
@[simp] theorem emit_stg : (emit e s).stg = s.stg := rfl
@[simp] theorem emit_rxIdx : (emit e s).rxIdx = s.rxIdx := rfl
@[simp] theorem emit_rxOvf : (emit e s).rxOvf = s.rxOvf := rfl
@[simp] theorem emit_slot : (emit e s).slot = s.slot := rfl
@[simp] theorem emit_slotLen : (emit e s).slotLen = s.slotLen := rfl
@[simp] theorem emit_ready : (emit e s).ready = s.ready := rfl
@[simp] theorem emit_stb : (emit e s).stb = s.stb := rfl
@[simp] theorem emit_ovrCnt : (emit e s).ovrCnt = s.ovrCnt := rfl
@[simp] theorem emit_ovszCnt : (emit e s).ovszCnt = s.ovszCnt := rfl
@[simp] theorem emit_cs : (emit e s).cs = s.cs := rfl
@[simp] theorem emit_tx : (emit e s).tx = s.tx := rfl
@[simp] theorem emit_rxIn : (emit e s).rxIn = s.rxIn := rfl
@[simp] theorem emit_trace : (emit e s).trace = s.trace ++ [e] := rfl
@[simp] theorem emit_responses : (emit e s).responses = s.responses := rfl
@[simp] theorem emit_inputs : (emit e s).inputs = s.inputs := rfl

end emit

section driveCs
variable (l : Level) (s : State)

@[simp] theorem driveCs_par : (driveCs l s).par = s.par := rfl
@[simp] theorem driveCs_en : (driveCs l s).en = s.en := rfl
@[simp] theorem driveCs_role : (driveCs l s).role = s.role := rfl
@[simp] theorem driveCs_bitord : (driveCs l s).bitord = s.bitord := rfl
@[simp] theorem driveCs_mode : (driveCs l s).mode = s.mode := rfl
@[simp] theorem driveCs_div : (driveCs l s).div = s.div := rfl
@[simp] theorem driveCs_x2 : (driveCs l s).x2 = s.x2 := rfl
@[simp] theorem driveCs_stg : (driveCs l s).stg = s.stg := rfl
@[simp] theorem driveCs_rxIdx : (driveCs l s).rxIdx = s.rxIdx := rfl
@[simp] theorem driveCs_rxOvf : (driveCs l s).rxOvf = s.rxOvf := rfl
@[simp] theorem driveCs_slot : (driveCs l s).slot = s.slot := rfl
@[simp] theorem driveCs_slotLen : (driveCs l s).slotLen = s.slotLen := rfl
@[simp] theorem driveCs_ready : (driveCs l s).ready = s.ready := rfl
@[simp] theorem driveCs_stb : (driveCs l s).stb = s.stb := rfl
@[simp] theorem driveCs_ovrCnt : (driveCs l s).ovrCnt = s.ovrCnt := rfl
@[simp] theorem driveCs_ovszCnt : (driveCs l s).ovszCnt = s.ovszCnt := rfl
@[simp] theorem driveCs_cs : (driveCs l s).cs = l := rfl
@[simp] theorem driveCs_tx : (driveCs l s).tx = s.tx := rfl
@[simp] theorem driveCs_rxIn : (driveCs l s).rxIn = s.rxIn := rfl
@[simp] theorem driveCs_trace : (driveCs l s).trace = s.trace ++ [.cs l] := rfl
@[simp] theorem driveCs_responses : (driveCs l s).responses = s.responses := rfl
@[simp] theorem driveCs_inputs : (driveCs l s).inputs = s.inputs := rfl

end driveCs

section s0
variable (pol : Polarity) (seq : List Byte) (s : State)

@[simp] theorem s0_par : (s0 pol seq s).par = s.par := rfl
@[simp] theorem s0_en : (s0 pol seq s).en = s.en := rfl
@[simp] theorem s0_role : (s0 pol seq s).role = s.role := rfl
@[simp] theorem s0_bitord : (s0 pol seq s).bitord = s.bitord := rfl
@[simp] theorem s0_mode : (s0 pol seq s).mode = s.mode := rfl
@[simp] theorem s0_div : (s0 pol seq s).div = s.div := rfl
@[simp] theorem s0_x2 : (s0 pol seq s).x2 = s.x2 := rfl
@[simp] theorem s0_stg : (s0 pol seq s).stg = s.stg := rfl
@[simp] theorem s0_rxIdx : (s0 pol seq s).rxIdx = s.rxIdx := rfl
@[simp] theorem s0_rxOvf : (s0 pol seq s).rxOvf = s.rxOvf := rfl
@[simp] theorem s0_slot : (s0 pol seq s).slot = s.slot := rfl
@[simp] theorem s0_slotLen : (s0 pol seq s).slotLen = s.slotLen := rfl
@[simp] theorem s0_ready : (s0 pol seq s).ready = s.ready := rfl
@[simp] theorem s0_stb : (s0 pol seq s).stb = s.stb := rfl
@[simp] theorem s0_ovrCnt : (s0 pol seq s).ovrCnt = s.ovrCnt := rfl
@[simp] theorem s0_ovszCnt : (s0 pol seq s).ovszCnt = s.ovszCnt := rfl
@[simp] theorem s0_cs : (s0 pol seq s).cs = act pol := rfl
@[simp] theorem s0_tx : (s0 pol seq s).tx = .busy seq 0 pol .issue := rfl
@[simp] theorem s0_rxIn : (s0 pol seq s).rxIn = s.rxIn := rfl
@[simp] theorem s0_trace : (s0 pol seq s).trace = s.trace ++ [.cs (act pol)] := rfl
@[simp] theorem s0_responses : (s0 pol seq s).responses = s.responses := rfl
@[simp] theorem s0_inputs : (s0 pol seq s).inputs = s.inputs := rfl

end s0

section drainSlot
variable (s : State)

@[simp] theorem drainSlot_par : (drainSlot s).par = s.par := rfl
@[simp] theorem drainSlot_en : (drainSlot s).en = s.en := rfl
@[simp] theorem drainSlot_role : (drainSlot s).role = s.role := rfl
@[simp] theorem drainSlot_bitord : (drainSlot s).bitord = s.bitord := rfl
@[simp] theorem drainSlot_mode : (drainSlot s).mode = s.mode := rfl
@[simp] theorem drainSlot_div : (drainSlot s).div = s.div := rfl
@[simp] theorem drainSlot_x2 : (drainSlot s).x2 = s.x2 := rfl
@[simp] theorem drainSlot_stg : (drainSlot s).stg = s.stg := rfl
@[simp] theorem drainSlot_rxIdx : (drainSlot s).rxIdx = s.rxIdx := rfl
@[simp] theorem drainSlot_rxOvf : (drainSlot s).rxOvf = s.rxOvf := rfl
@[simp] theorem drainSlot_slot : (drainSlot s).slot = s.slot.zeroFrom 0 s.slotLen.toNat := rfl
@[simp] theorem drainSlot_slotLen : (drainSlot s).slotLen = 0#8 := rfl
@[simp] theorem drainSlot_ready : (drainSlot s).ready = false := rfl
@[simp] theorem drainSlot_stb :
    (drainSlot s).stb = (s.stb.copy s.slot s.slotLen.toNat).zeroFrom s.slotLen.toNat
      (s.par.capacity - s.slotLen.toNat) := rfl
@[simp] theorem drainSlot_ovrCnt : (drainSlot s).ovrCnt = s.ovrCnt := rfl
@[simp] theorem drainSlot_ovszCnt : (drainSlot s).ovszCnt = s.ovszCnt := rfl
@[simp] theorem drainSlot_cs : (drainSlot s).cs = s.cs := rfl
@[simp] theorem drainSlot_tx : (drainSlot s).tx = s.tx := rfl
@[simp] theorem drainSlot_rxIn : (drainSlot s).rxIn = s.rxIn := rfl
@[simp] theorem drainSlot_trace : (drainSlot s).trace = s.trace := rfl
@[simp] theorem drainSlot_responses : (drainSlot s).responses = s.responses := rfl
@[simp] theorem drainSlot_inputs : (drainSlot s).inputs = s.inputs := rfl

end drainSlot

section endFrame
variable (s : State)

@[simp] theorem endFrame_par : (endFrame s).par = s.par := rfl
@[simp] theorem endFrame_en : (endFrame s).en = s.en := rfl
@[simp] theorem endFrame_role : (endFrame s).role = s.role := rfl
@[simp] theorem endFrame_bitord : (endFrame s).bitord = s.bitord := rfl
@[simp] theorem endFrame_mode : (endFrame s).mode = s.mode := rfl
@[simp] theorem endFrame_div : (endFrame s).div = s.div := rfl
@[simp] theorem endFrame_x2 : (endFrame s).x2 = s.x2 := rfl
@[simp] theorem endFrame_stg : (endFrame s).stg = s.stg := rfl
@[simp] theorem endFrame_rxIdx : (endFrame s).rxIdx = 0#8 := rfl
@[simp] theorem endFrame_rxOvf : (endFrame s).rxOvf = false := rfl
@[simp] theorem endFrame_slot : (endFrame s).slot = s.slot := rfl
@[simp] theorem endFrame_slotLen : (endFrame s).slotLen = s.slotLen := rfl
@[simp] theorem endFrame_ready : (endFrame s).ready = s.ready := rfl
@[simp] theorem endFrame_stb : (endFrame s).stb = s.stb := rfl
@[simp] theorem endFrame_ovrCnt : (endFrame s).ovrCnt = s.ovrCnt := rfl
@[simp] theorem endFrame_ovszCnt : (endFrame s).ovszCnt = s.ovszCnt := rfl
@[simp] theorem endFrame_cs : (endFrame s).cs = s.cs := rfl
@[simp] theorem endFrame_tx : (endFrame s).tx = s.tx := rfl
@[simp] theorem endFrame_rxIn : (endFrame s).rxIn = s.rxIn := rfl
@[simp] theorem endFrame_trace : (endFrame s).trace = s.trace := rfl
@[simp] theorem endFrame_responses : (endFrame s).responses = s.responses := rfl
@[simp] theorem endFrame_inputs : (endFrame s).inputs = s.inputs := rfl

end endFrame

section moveToSlot
variable (s : State)

@[simp] theorem moveToSlot_par : (moveToSlot s).par = s.par := rfl
@[simp] theorem moveToSlot_en : (moveToSlot s).en = s.en := rfl
@[simp] theorem moveToSlot_role : (moveToSlot s).role = s.role := rfl
@[simp] theorem moveToSlot_bitord : (moveToSlot s).bitord = s.bitord := rfl
@[simp] theorem moveToSlot_mode : (moveToSlot s).mode = s.mode := rfl
@[simp] theorem moveToSlot_div : (moveToSlot s).div = s.div := rfl
@[simp] theorem moveToSlot_x2 : (moveToSlot s).x2 = s.x2 := rfl
@[simp] theorem moveToSlot_stg : (moveToSlot s).stg = s.stg := rfl
@[simp] theorem moveToSlot_rxIdx : (moveToSlot s).rxIdx = s.rxIdx := rfl
@[simp] theorem moveToSlot_rxOvf : (moveToSlot s).rxOvf = s.rxOvf := rfl
@[simp] theorem moveToSlot_slot : (moveToSlot s).slot = s.slot.copy s.stg s.rxIdx.toNat := rfl
@[simp] theorem moveToSlot_slotLen : (moveToSlot s).slotLen = s.rxIdx := rfl
@[simp] theorem moveToSlot_ready : (moveToSlot s).ready = true := rfl
@[simp] theorem moveToSlot_stb : (moveToSlot s).stb = s.stb := rfl
@[simp] theorem moveToSlot_ovrCnt :
    (moveToSlot s).ovrCnt = if s.ready then satInc8 s.ovrCnt else s.ovrCnt := rfl
@[simp] theorem moveToSlot_ovszCnt : (moveToSlot s).ovszCnt = s.ovszCnt := rfl
@[simp] theorem moveToSlot_cs : (moveToSlot s).cs = s.cs := rfl
@[simp] theorem moveToSlot_tx : (moveToSlot s).tx = s.tx := rfl
@[simp] theorem moveToSlot_rxIn : (moveToSlot s).rxIn = s.rxIn := rfl
@[simp] theorem moveToSlot_trace : (moveToSlot s).trace = s.trace := rfl
@[simp] theorem moveToSlot_responses : (moveToSlot s).responses = s.responses := rfl
@[simp] theorem moveToSlot_inputs : (moveToSlot s).inputs = s.inputs := rfl

end moveToSlot

section powerOnReset
variable (s : State)

@[simp] theorem powerOnReset_par : (powerOnReset s).par = s.par := rfl
@[simp] theorem powerOnReset_en : (powerOnReset s).en = false := rfl
@[simp] theorem powerOnReset_role : (powerOnReset s).role = .slave := rfl
@[simp] theorem powerOnReset_bitord : (powerOnReset s).bitord = .msbFirst := rfl
@[simp] theorem powerOnReset_mode : (powerOnReset s).mode = 0#2 := rfl
@[simp] theorem powerOnReset_div : (powerOnReset s).div = 0#2 := rfl
@[simp] theorem powerOnReset_x2 : (powerOnReset s).x2 = false := rfl
@[simp] theorem powerOnReset_stg : (powerOnReset s).stg = [] := rfl
@[simp] theorem powerOnReset_rxIdx : (powerOnReset s).rxIdx = 0#8 := rfl
@[simp] theorem powerOnReset_rxOvf : (powerOnReset s).rxOvf = false := rfl
@[simp] theorem powerOnReset_slot : (powerOnReset s).slot = [] := rfl
@[simp] theorem powerOnReset_slotLen : (powerOnReset s).slotLen = 0#8 := rfl
@[simp] theorem powerOnReset_ready : (powerOnReset s).ready = false := rfl
@[simp] theorem powerOnReset_stb : (powerOnReset s).stb = [] := rfl
@[simp] theorem powerOnReset_ovrCnt : (powerOnReset s).ovrCnt = 0#8 := rfl
@[simp] theorem powerOnReset_ovszCnt : (powerOnReset s).ovszCnt = 0#8 := rfl
@[simp] theorem powerOnReset_cs : (powerOnReset s).cs = s.par.csReset := rfl
@[simp] theorem powerOnReset_tx : (powerOnReset s).tx = .idle := rfl
@[simp] theorem powerOnReset_rxIn : (powerOnReset s).rxIn = [] := rfl
@[simp] theorem powerOnReset_trace : (powerOnReset s).trace = s.trace ++ [.cs s.par.csReset] := rfl
@[simp] theorem powerOnReset_responses : (powerOnReset s).responses = s.responses := rfl
@[simp] theorem powerOnReset_inputs : (powerOnReset s).inputs = s.inputs := rfl

end powerOnReset

section taken
variable (s : State)

@[simp] theorem taken_par : (taken s).par = s.par := rfl
@[simp] theorem taken_en : (taken s).en = s.en := rfl
@[simp] theorem taken_role : (taken s).role = s.role := rfl
@[simp] theorem taken_bitord : (taken s).bitord = s.bitord := rfl
@[simp] theorem taken_mode : (taken s).mode = s.mode := rfl
@[simp] theorem taken_div : (taken s).div = s.div := rfl
@[simp] theorem taken_x2 : (taken s).x2 = s.x2 := rfl
@[simp] theorem taken_stg : (taken s).stg = s.stg := rfl
@[simp] theorem taken_rxIdx : (taken s).rxIdx = s.rxIdx := rfl
@[simp] theorem taken_rxOvf : (taken s).rxOvf = s.rxOvf := rfl
@[simp] theorem taken_slot : (taken s).slot = s.slot := rfl
@[simp] theorem taken_slotLen : (taken s).slotLen = s.slotLen := rfl
@[simp] theorem taken_ready : (taken s).ready = s.ready := rfl
@[simp] theorem taken_stb : (taken s).stb = s.stb := rfl
@[simp] theorem taken_ovrCnt : (taken s).ovrCnt = s.ovrCnt := rfl
@[simp] theorem taken_ovszCnt : (taken s).ovszCnt = s.ovszCnt := rfl
@[simp] theorem taken_cs : (taken s).cs = s.cs := rfl
@[simp] theorem taken_tx : (taken s).tx = s.tx := rfl
@[simp] theorem taken_rxIn : (taken s).rxIn = s.rxIn := rfl
@[simp] theorem taken_trace : (taken s).trace = s.trace := rfl
@[simp] theorem taken_responses : (taken s).responses = s.responses := rfl
@[simp] theorem taken_inputs : (taken s).inputs = s.inputs.tail := rfl

end taken

section withoutTransportFields
variable (s : State)

@[simp] theorem withoutTransportFields_par : (withoutTransportFields s).par = s.par := rfl
@[simp] theorem withoutTransportFields_en : (withoutTransportFields s).en = s.en := rfl
@[simp] theorem withoutTransportFields_role : (withoutTransportFields s).role = s.role := rfl
@[simp] theorem withoutTransportFields_bitord : (withoutTransportFields s).bitord = .msbFirst := rfl
@[simp] theorem withoutTransportFields_mode : (withoutTransportFields s).mode = 0#2 := rfl
@[simp] theorem withoutTransportFields_div : (withoutTransportFields s).div = 0#2 := rfl
@[simp] theorem withoutTransportFields_x2 : (withoutTransportFields s).x2 = false := rfl
@[simp] theorem withoutTransportFields_stg : (withoutTransportFields s).stg = s.stg := rfl
@[simp] theorem withoutTransportFields_rxIdx : (withoutTransportFields s).rxIdx = s.rxIdx := rfl
@[simp] theorem withoutTransportFields_rxOvf : (withoutTransportFields s).rxOvf = s.rxOvf := rfl
@[simp] theorem withoutTransportFields_slot : (withoutTransportFields s).slot = s.slot := rfl
@[simp] theorem withoutTransportFields_slotLen : (withoutTransportFields s).slotLen = s.slotLen := rfl
@[simp] theorem withoutTransportFields_ready : (withoutTransportFields s).ready = s.ready := rfl
@[simp] theorem withoutTransportFields_stb : (withoutTransportFields s).stb = s.stb := rfl
@[simp] theorem withoutTransportFields_ovrCnt : (withoutTransportFields s).ovrCnt = s.ovrCnt := rfl
@[simp] theorem withoutTransportFields_ovszCnt : (withoutTransportFields s).ovszCnt = s.ovszCnt := rfl
@[simp] theorem withoutTransportFields_cs : (withoutTransportFields s).cs = s.cs := rfl
@[simp] theorem withoutTransportFields_tx : (withoutTransportFields s).tx = s.tx := rfl
@[simp] theorem withoutTransportFields_rxIn : (withoutTransportFields s).rxIn = s.rxIn := rfl
@[simp] theorem withoutTransportFields_trace : (withoutTransportFields s).trace = s.trace := rfl
@[simp] theorem withoutTransportFields_responses : (withoutTransportFields s).responses = s.responses := rfl
@[simp] theorem withoutTransportFields_inputs : (withoutTransportFields s).inputs = s.inputs := rfl

end withoutTransportFields

end Sys2Proof.Machine
end

