-- ==== Sys2Proof/Laws/Ops.lean ====
section
/-! SUPPORT. One lemma for each shared operation and each meaning that says once what it can do: when it answers a
next state, under what condition, and which state. -/

namespace Sys2Proof.Machine

theorem next_eq_next {s t : State} : (Host.Outcome.next s : Result) = .next t ↔ t = s :=
  ⟨fun h => by cases h; rfl, fun h => by rw [h]⟩

theorem rxEnabled_iff (s : State) : rxEnabled s = true ↔ s.en = true ∧ s.role = .slave := by
  simp [rxEnabled]

theorem txEnabled_iff (s : State) : txEnabled s = true ↔ s.en = true ∧ s.role = .master := by
  simp [txEnabled]

/-- An idle block runs the command. -/
theorem hostCommand_of_idle {s : State} (h : s.tx = .idle) (r : Result) : hostCommand s r = r := by
  simp [hostCommand, h]

/-- A busy block refuses the command. -/
theorem hostCommand_of_busy {s : State} (h : s.tx ≠ .idle) (r : Result) :
    hostCommand s r = .refused .commandWhileBusy := by
  simp [hostCommand, h]

/-- A host command answers a next state only when the block is idle, and then it is the command's. -/
theorem hostCommand_eq_next {s t : State} {r : Result} :
    hostCommand s r = .next t ↔ s.tx = .idle ∧ r = .next t := by
  unfold hostCommand
  split <;> simp_all

/-- A host command faults only when the block is idle and the command faults. -/
theorem hostCommand_eq_fault {s : State} {r : Result} {f : Fault} :
    hostCommand s r = .fault f ↔ s.tx = .idle ∧ r = .fault f := by
  unfold hostCommand
  split <;> simp_all

theorem raiseErr_eq_next {s t : State} {c : RespCode} :
    raiseErr c s = .next t ↔ t = respond c 0#32 s := by
  rw [raiseErr, next_eq_next]

theorem execIllegal_eq_next {s t : State} :
    execIllegal s = .next t ↔ s.tx = .idle ∧ t = respond .illegal 0#32 s := by
  simp [execIllegal, hostCommand_eq_next, raiseErr_eq_next]

/-- The interrupt is taken exactly when it is enabled and its byte is the one that waits first. -/
theorem takeInterrupt_eq_ok {b : Byte} {s s' : State} :
    takeInterrupt b s = .ok s' ↔
      rxEnabled s = true ∧ ∃ rest, s.rxIn = b :: rest ∧ s' = { s with rxIn := rest } := by
  unfold takeInterrupt
  split
  · rename_i he
    cases hr : s.rxIn with
    | nil => simp
    | cons h rest =>
      by_cases hb : h = b
      · simp [he, hb, eq_comm]
      · simp [hb]
  · simp_all

/-- What a frame's start answers: the error of R165, or `S0`. -/
theorem startFrame_eq_next {pol : Polarity} {p : List Byte} {s t : State} :
    startFrame pol p s = .next t ↔
      (s.par.txDelim = .reject ∧ delim ∈ p ∧ t = respond .delimInPayload 0#32 s) ∨
        (¬ (s.par.txDelim = .reject ∧ delim ∈ p) ∧ t = s0 pol (p ++ [delim]) s) := by
  unfold startFrame
  by_cases h : s.par.txDelim = .reject ∧ delim ∈ p
  · rw [if_pos h, raiseErr_eq_next]
    exact ⟨fun e => .inl ⟨h.1, h.2, e⟩, fun e => e.elim (fun e => e.2.2) (fun e => absurd h e.1)⟩
  · rw [if_neg h, next_eq_next]
    exact ⟨fun e => .inr ⟨h, e⟩, fun e => e.elim (fun e => absurd ⟨e.1, e.2.1⟩ h) (fun e => e.2)⟩

theorem execCfg_eq_next {en x2 : Bool} {div mode : BitVec 2} {bitord : BitOrder} {role : Role} {s t : State} :
    execCfg en x2 div mode bitord role s = .next t ↔ s.tx = .idle ∧
      t = respond .ok 0#32
        { s with en := en, x2 := x2, div := div, mode := mode, bitord := bitord, role := role } := by
  rw [execCfg, hostCommand_eq_next, next_eq_next]

theorem execRdst_eq_next {s t : State} :
    execRdst s = .next t ↔ s.tx = .idle ∧ t = respond .ok (statusWord s) s := by
  rw [execRdst, hostCommand_eq_next, next_eq_next]

theorem execAckerr_eq_next {ovr ovsz : Bool} {s t : State} :
    execAckerr ovr ovsz s = .next t ↔ s.tx = .idle ∧
      t = respond .ok 0#32
        { s with
          ovrCnt := if ovr then 0#8 else s.ovrCnt
          ovszCnt := if ovsz then 0#8 else s.ovszCnt } := by
  rw [execAckerr, hostCommand_eq_next, next_eq_next]

/-- `TAKE` finds nothing, or drains the slot. -/
theorem execTake_eq_next {s t : State} :
    execTake s = .next t ↔ s.tx = .idle ∧
      ((s.ready = false ∧ t = respond .ok 0#32 s) ∨
        (s.ready = true ∧ s.slotLen.toNat ≤ s.par.capacity ∧
          t = respond .ok (takeData s.slotLen) (drainSlot s))) := by
  rw [execTake, hostCommand_eq_next]
  cases hr : s.ready
  · simp [eq_comm]
  · by_cases hn : s.slotLen.toNat ≤ s.par.capacity <;> simp [hn, eq_comm]

theorem execRdsb_eq_next {i : Nat} {s t : State} :
    execRdsb i s = .next t ↔ s.tx = .idle ∧
      ((s.par.capacity ≤ i ∧ t = respond .indexRange 0#32 s) ∨
        (i < s.par.capacity ∧ t = respond .ok (byteData (s.stb.read i)) s)) := by
  rw [execRdsb, hostCommand_eq_next]
  by_cases hi : s.par.capacity ≤ i
  · simp [hi, raiseErr_eq_next, Nat.not_lt.2 hi]
  · simp [hi, Nat.lt_of_not_le hi, eq_comm]

/-- A transmit command is turned away for its role, or starts a frame. -/
theorem execTxb_eq_next {pol : Polarity} {b : Byte} {s t : State} :
    execTxb pol b s = .next t ↔ s.tx = .idle ∧
      ((txEnabled s = false ∧ t = respond .notMaster 0#32 s) ∨
        (txEnabled s = true ∧ startFrame pol (bytePayload b) s = .next t)) := by
  rw [execTxb, hostCommand_eq_next]
  cases h : txEnabled s <;> simp [raiseErr_eq_next]

theorem execTxs_eq_next {pol : Polarity} {text : List Byte} {s t : State} :
    execTxs pol text s = .next t ↔ s.tx = .idle ∧
      ((txEnabled s = false ∧ t = respond .notMaster 0#32 s) ∨
        (txEnabled s = true ∧ startFrame pol (textPayload text) s = .next t)) := by
  rw [execTxs, hostCommand_eq_next]
  cases h : txEnabled s <;> simp [raiseErr_eq_next]

theorem execTxi_eq_next {pol : Polarity} {w : Nat} {v : U64} {s t : State} :
    execTxi pol w v s = .next t ↔ s.tx = .idle ∧
      ((txEnabled s = false ∧ t = respond .notMaster 0#32 s) ∨
        (txEnabled s = true ∧ maxWidth < w ∧ t = respond .badWidth 0#32 s) ∨
        (txEnabled s = true ∧ w ≤ maxWidth ∧ startFrame pol (beBytes v w) s = .next t)) := by
  rw [execTxi, hostCommand_eq_next]
  cases h : txEnabled s
  · simp [raiseErr_eq_next]
  · by_cases hw : maxWidth < w
    · simp [hw, raiseErr_eq_next, Nat.not_le.2 hw]
    · simp [hw, Nat.le_of_not_lt hw]

/-- What a payload byte does: it is stored, or it is dropped and marks its frame. -/
theorem receivePayload_cases (b : Byte) (s : State) :
    (s.rxIdx.toNat < s.par.capacity ∧ receivePayload b s =
        { s with stg := s.stg.write s.rxIdx.toNat b, rxIdx := s.rxIdx + 1#8 }) ∨
      (s.par.capacity ≤ s.rxIdx.toNat ∧ s.rxOvf = true ∧ receivePayload b s = s) ∨
      (s.par.capacity ≤ s.rxIdx.toNat ∧ s.rxOvf = false ∧ receivePayload b s =
        { s with rxOvf := true, ovszCnt := satInc8 s.ovszCnt }) := by
  unfold receivePayload
  split
  · exact .inl ⟨‹_›, rfl⟩
  · rename_i h
    cases ho : s.rxOvf
    · exact .inr (.inr ⟨by omega, rfl, by simp⟩)
    · exact .inr (.inl ⟨by omega, rfl, by simp⟩)

theorem dropsFrame_iff (s : State) :
    dropsFrame s = true ↔ s.rxOvf = true ∧ s.par.oversize = .discard := by
  simp [dropsFrame]

/-- What a delimiter does: it drops an oversize frame, or moves the frame into the slot. -/
theorem receiveDelim_eq_next {s t : State} :
    receiveDelim s = .next t ↔
      (dropsFrame s = true ∧ t = endFrame s) ∨
        (dropsFrame s = false ∧ s.rxIdx.toNat ≤ s.par.capacity ∧ t = endFrame (moveToSlot s)) := by
  unfold receiveDelim
  cases hd : dropsFrame s
  · by_cases hn : s.rxIdx.toNat ≤ s.par.capacity <;> simp [hn, eq_comm]
  · simp [eq_comm]

/-- What one `RXB` does. -/
theorem execRxb_eq_next {b : Byte} {s t : State} :
    execRxb b s = .next t ↔ rxEnabled s = true ∧ ∃ rest, s.rxIn = b :: rest ∧
      ((b ≠ delim ∧ t = receivePayload b { s with rxIn := rest }) ∨
        (b = delim ∧ receiveDelim { s with rxIn := rest } = .next t)) := by
  unfold execRxb
  cases ht : takeInterrupt b s with
  | error r =>
    simp only [reduceCtorEq, false_iff]
    rintro ⟨he, rest, hr, -⟩
    rw [takeInterrupt_eq_ok.2 ⟨he, rest, hr, rfl⟩] at ht
    cases ht
  | ok s' =>
    obtain ⟨he, rest, hr, rfl⟩ := takeInterrupt_eq_ok.1 ht
    by_cases hb : b = delim
    · subst hb; simp [he, hr]
    · simp [he, hr, hb, eq_comm]

/-- The completion of a byte moves the sequencer on, and is refused outside phase `Wait`. -/
theorem execTxdone_eq_next {s t : State} :
    execTxdone s = .next t ↔ ∃ seq k pol, s.tx = .busy seq k pol .wait ∧
      t = { s with tx := .busy seq (k + 1) pol (if k + 1 = seq.length then .release else .issue) } := by
  unfold execTxdone
  split <;> rename_i h <;> simp [h, eq_comm]

/-- What the HOST's micro-step does. -/
theorem hostMicroStep_eq_next {s t : State} :
    hostMicroStep s = .next t ↔
      (∃ seq k pol b, s.tx = .busy seq k pol .issue ∧ seq[k]? = some b ∧
        t = emit (.byte b) { s with tx := .busy seq k pol .wait }) ∨
      (∃ seq k pol, s.tx = .busy seq k pol .release ∧
        t = respond .ok 0#32 { driveCs (inact pol) s with tx := .idle }) ∨
      (∃ seq k pol, s.tx = .busy seq k pol .wait ∧ t = s) ∨
      (s.tx = .idle ∧ t = s) := by
  unfold hostMicroStep
  split
  · rename_i seq k pol h
    cases hb : seq[k]? <;> simp [h, hb, eq_comm]
  all_goals rename_i h; simp [h, eq_comm]

/-- What an arrival does. -/
theorem arrive_cases (b : Byte) (s : State) :
    (rxEnabled s = true ∧ arrive b s = { s with rxIn := s.rxIn ++ [b] }) ∨
      (rxEnabled s = false ∧ arrive b s = s) := by
  cases h : rxEnabled s <;> simp [arrive, h]

end Sys2Proof.Machine
end

