-- ==== Sys2Proof/Laws/Step.lean ====
section
/-! SUPPORT. What one step can do, said once: which agent moved, and what its move answered. -/

namespace Sys2Proof.Machine

theorem taken_of_nil {s : State} (h : s.inputs = []) : taken s = s := by
  cases s; simp_all [taken]

theorem taken_of_cons {s : State} {i : Input} {rest : List Input} (h : s.inputs = i :: rest) :
    taken s = { s with inputs := rest } := by
  simp [taken, h]

/-- A step of an admitted instance takes the head of the schedule. -/
theorem step_of_cons {s : State} (hw : s.par.wf) {i : Input} {rest : List Input}
    (h : s.inputs = i :: rest) : step s = stepInput i { s with inputs := rest } := by
  simp [step, hw, h]

/-- A step of an admitted instance with nothing scheduled. -/
theorem step_of_nil {s : State} (hw : s.par.wf) (h : s.inputs = []) : step s = idleStep s := by
  simp [step, hw, h]

/-- A step of an instance that is not admitted is refused. -/
theorem step_of_not_wf {s : State} (hw : ¬ s.par.wf) : step s = .refused .capacityOutOfRange := by
  simp [step, hw]

/-- Everything a step that answers a next state can be. -/
theorem step_next_cases {s t : State} (h : step s = .next t) :
    s.par.wf ∧
      (t = taken s ∨
        (∃ b, s.inputs.head? = some (.arrive b) ∧ t = arrive b (taken s)) ∨
        (resetsNext s ∧ t = powerOnReset (taken s)) ∨
        (∃ w p r, s.inputs.head? = some (.command w p) ∧ decodeCommand w p = .error r ∧
          execIllegal (taken s) = .next t) ∨
        (hostMovesNext s ∧ hostMicroStep (taken s) = .next t) ∨
        (∃ i, nextInstr s = some i ∧ exec i (taken s) = .next t)) := by
  by_cases hw : s.par.wf
  swap
  · rw [step_of_not_wf hw] at h; cases h
  refine ⟨hw, ?_⟩
  cases hi : s.inputs with
  | nil =>
    rw [step_of_nil hw hi, idleStep] at h
    rw [taken_of_nil hi]
    split at h
    · rename_i seq k pol ht
      exact .inr (.inr (.inr (.inr (.inl ⟨⟨.inr hi, seq, k, pol, _, ht, by simp⟩, h⟩))))
    · rename_i seq k pol ht
      exact .inr (.inr (.inr (.inr (.inl ⟨⟨.inr hi, seq, k, pol, _, ht, by simp⟩, h⟩))))
    · rename_i ht
      split at h
      · rename_i hf
        exact .inr (.inr (.inr (.inr (.inr ⟨.txdone, by simp [nextInstr, hi, ht, hf], h⟩))))
      · exact .inl (by simpa [eq_comm] using h)
    · rename_i ht
      split at h
      · rename_i b rest hr
        split at h
        · rename_i hf
          exact .inr (.inr (.inr (.inr (.inr ⟨.rxb b, by
            simp only [nextInstr, hi, ht, hr, hf, if_true], h⟩))))
        · exact .inl (by simpa [eq_comm] using h)
      · exact .inl (by simpa [eq_comm] using h)
  | cons i rest =>
    rw [step_of_cons hw hi] at h
    rw [taken_of_cons hi]
    cases i with
    | command w p =>
      rw [stepInput] at h
      split at h
      · rename_i i hd
        exact .inr (.inr (.inr (.inr (.inr ⟨i, by simp [nextInstr, hi, hd, Except.toOption], h⟩))))
      · rename_i r hd
        exact .inr (.inr (.inr (.inl ⟨w, p, r, by simp, hd, h⟩)))
    | hostStep =>
      rw [stepInput] at h
      cases ht : s.tx with
      | idle =>
        rw [hostMicroStep] at h
        simp only [ht] at h
        exact .inl (by simpa [eq_comm] using h)
      | busy seq k pol phase =>
        cases phase with
        | issue => exact .inr (.inr (.inr (.inr (.inl ⟨⟨.inl (by simp [hi]), seq, k, pol, _, ht, by simp⟩, ht ▸ h⟩))))
        | release => exact .inr (.inr (.inr (.inr (.inl ⟨⟨.inl (by simp [hi]), seq, k, pol, _, ht, by simp⟩, ht ▸ h⟩))))
        | wait =>
          rw [hostMicroStep] at h
          simp only [ht] at h
          exact .inl (by simpa [eq_comm] using h)
    | event w =>
      rw [stepInput] at h
      split at h
      · rename_i i hd
        exact .inr (.inr (.inr (.inr (.inr ⟨i, by simp [nextInstr, hi, hd, Except.toOption], h⟩))))
      · cases h
    | arrive b =>
      rw [stepInput] at h
      exact .inr (.inl ⟨b, by simp, by simpa [eq_comm] using h⟩)
    | reset =>
      rw [stepInput] at h
      exact .inr (.inr (.inl ⟨by simp [resetsNext, hi], by simpa [eq_comm] using h⟩))

/-- A step that runs an instruction is `exec` of it. -/
theorem step_of_nextInstr {s : State} {i : Instr} (hw : s.par.wf) (hn : nextInstr s = some i) :
    step s = exec i (taken s) := by
  unfold nextInstr at hn
  split at hn
  · rename_i w p rest hi
    rw [step_of_cons hw hi, taken_of_cons hi, stepInput]
    cases hd : decodeCommand w p <;> simp_all [Except.toOption]
  · rename_i w rest hi
    rw [step_of_cons hw hi, taken_of_cons hi, stepInput]
    cases hd : decodeEvent w <;> simp_all [Except.toOption]
  all_goals try cases hn
  rename_i hi
  rw [step_of_nil hw hi, taken_of_nil hi, idleStep]
  split at hn <;> rename_i ht
  · split at hn
    · rename_i hf
      cases hn
      simp [ht, hf, exec]
    · cases hn
  · cases hn
  · cases hn
  · split at hn
    · rename_i b rest hr
      split at hn
      · rename_i hf
        cases hn
        simp only [ht, hr, hf, exec, if_true]
      · cases hn
    · cases hn

/-- Every effect a step can have, with the condition it has it under. -/
inductive Effect (s : State) : State → Prop
  /-- Nothing but the schedule changes: a turn of a HOST with no micro-step, a discarded byte, an empty schedule. -/
  | stutters : Effect s (taken s)
  /-- `ARRIVE`. -/
  | arrives (b : Byte) (hi : s.inputs.head? = some (.arrive b)) (he : rxEnabled s = true) :
      Effect s { taken s with rxIn := s.rxIn ++ [b] }
  /-- Power-on reset. -/
  | resets (hr : resetsNext s) : Effect s (powerOnReset (taken s))
  /-- A command that only answers: every error, `RDST`, `RDSB`, and a `TAKE` that finds nothing. -/
  | answers (c : RespCode) (d : Word32) (ht : s.tx = .idle) (hd : c ≠ .ok → d = 0#32) :
      Effect s (respond c d (taken s))
  /-- `CFG`. -/
  | configures (en x2 : Bool) (div mode : BitVec 2) (bitord : BitOrder) (role : Role) (ht : s.tx = .idle)
      (hn : nextInstr s = some (.cfg en x2 div mode bitord role)) :
      Effect s (respond .ok 0#32
        { taken s with en := en, x2 := x2, div := div, mode := mode, bitord := bitord, role := role })
  /-- `ACKERR`. -/
  | clears (ovr ovsz : Bool) (ht : s.tx = .idle) (hn : nextInstr s = some (.ackerr ovr ovsz)) :
      Effect s (respond .ok 0#32
        { taken s with
          ovrCnt := if ovr then 0#8 else s.ovrCnt
          ovszCnt := if ovsz then 0#8 else s.ovszCnt })
  /-- A `TAKE` that drains the slot. -/
  | drains (ht : s.tx = .idle) (hn : nextInstr s = some .take) (hr : s.ready = true)
      (hl : s.slotLen.toNat ≤ s.par.capacity) :
      Effect s (respond .ok (takeData s.slotLen) (drainSlot (taken s)))
  /-- A transmit command that passes its checks: `S0`. -/
  | asserts (pol : Polarity) (payload : List Byte) (ht : s.tx = .idle) (hn : transmitIssuedNext s)
      (he : txEnabled s = true) : Effect s (s0 pol (payload ++ [delim]) (taken s))
  /-- `S1`. -/
  | issues (seq : List Byte) (k : Nat) (pol : Polarity) (b : Byte) (hh : hostMovesNext s)
      (ht : s.tx = .busy seq k pol .issue) (hb : seq[k]? = some b) :
      Effect s (emit (.byte b) { taken s with tx := .busy seq k pol .wait })
  /-- `TXDONE`. -/
  | completes (seq : List Byte) (k : Nat) (pol : Polarity) (hn : nextInstr s = some .txdone)
      (ht : s.tx = .busy seq k pol .wait) :
      Effect s { taken s with
        tx := .busy seq (k + 1) pol (if k + 1 = seq.length then .release else .issue) }
  /-- `S3`. -/
  | releases (seq : List Byte) (k : Nat) (pol : Polarity) (hh : hostMovesNext s)
      (ht : s.tx = .busy seq k pol .release) :
      Effect s (respond .ok 0#32 { driveCs (inact pol) (taken s) with tx := .idle })
  /-- A payload byte with room. -/
  | stores (b : Byte) (rest : List Byte) (hn : nextInstr s = some (.rxb b)) (he : rxEnabled s = true)
      (hr : s.rxIn = b :: rest) (hb : b ≠ delim) (hi : s.rxIdx.toNat < s.par.capacity) :
      Effect s { taken s with
        rxIn := rest, stg := s.stg.write s.rxIdx.toNat b, rxIdx := s.rxIdx + 1#8 }
  /-- A payload byte of a frame already marked oversize. -/
  | dropsMore (b : Byte) (rest : List Byte) (hn : nextInstr s = some (.rxb b)) (he : rxEnabled s = true)
      (hr : s.rxIn = b :: rest) (hb : b ≠ delim) (hi : s.par.capacity ≤ s.rxIdx.toNat)
      (ho : s.rxOvf = true) : Effect s { taken s with rxIn := rest }
  /-- The first payload byte of a frame that does not fit. -/
  | marks (b : Byte) (rest : List Byte) (hn : nextInstr s = some (.rxb b)) (he : rxEnabled s = true)
      (hr : s.rxIn = b :: rest) (hb : b ≠ delim) (hi : s.par.capacity ≤ s.rxIdx.toNat)
      (ho : s.rxOvf = false) :
      Effect s { taken s with rxIn := rest, rxOvf := true, ovszCnt := satInc8 s.ovszCnt }
  /-- A delimiter that drops its frame. -/
  | discards (rest : List Byte) (hn : nextInstr s = some (.rxb delim)) (he : rxEnabled s = true)
      (hr : s.rxIn = delim :: rest) (hd : dropsFrame s = true) :
      Effect s (endFrame { taken s with rxIn := rest })
  /-- A delimiter that moves its frame into the slot. -/
  | delivers (rest : List Byte) (hn : nextInstr s = some (.rxb delim)) (he : rxEnabled s = true)
      (hr : s.rxIn = delim :: rest) (hd : dropsFrame s = false) (hi : s.rxIdx.toNat ≤ s.par.capacity) :
      Effect s (endFrame (moveToSlot { taken s with rxIn := rest }))

/-- What `exec` does in a step, as an effect. -/
theorem exec_effect {s t : State} {i : Instr} (hn : nextInstr s = some i)
    (h : exec i (taken s) = .next t) : Effect s t := by
  have frame : ∀ (pol : Polarity) (p : List Byte), s.tx = .idle → transmitIssuedNext s →
      txEnabled (taken s) = true → startFrame pol p (taken s) = .next t → Effect s t := by
    intro pol p ht hi he h
    rcases startFrame_eq_next.1 h with ⟨-, -, rfl⟩ | ⟨-, rfl⟩
    · exact .answers _ _ ht fun _ => rfl
    · exact .asserts pol p ht hi he
  cases i with
  | cfg en x2 div mode o r =>
    obtain ⟨ht, rfl⟩ := execCfg_eq_next.1 h
    exact .configures en x2 div mode o r ht hn
  | txb pol b =>
    obtain ⟨ht, ⟨-, rfl⟩ | ⟨he, h⟩⟩ := execTxb_eq_next.1 h
    · exact .answers _ _ ht fun _ => rfl
    · exact frame _ _ ht (.inl ⟨_, _, hn⟩) he h
  | txs pol text =>
    obtain ⟨ht, ⟨-, rfl⟩ | ⟨he, h⟩⟩ := execTxs_eq_next.1 h
    · exact .answers _ _ ht fun _ => rfl
    · exact frame _ _ ht (.inr (.inl ⟨_, _, hn⟩)) he h
  | txi pol w v =>
    obtain ⟨ht, ⟨-, rfl⟩ | ⟨-, -, rfl⟩ | ⟨he, -, h⟩⟩ := execTxi_eq_next.1 h
    · exact .answers _ _ ht fun _ => rfl
    · exact .answers _ _ ht fun _ => rfl
    · exact frame _ _ ht (.inr (.inr ⟨_, _, _, hn⟩)) he h
  | take =>
    obtain ⟨ht, ⟨-, rfl⟩ | ⟨hr, hl, rfl⟩⟩ := execTake_eq_next.1 h
    · exact .answers _ _ ht fun h => absurd rfl h
    · exact .drains ht hn hr hl
  | rdsb i =>
    obtain ⟨ht, ⟨-, rfl⟩ | ⟨-, rfl⟩⟩ := execRdsb_eq_next.1 h
    · exact .answers _ _ ht fun _ => rfl
    · exact .answers _ _ ht fun h => absurd rfl h
  | rdst =>
    obtain ⟨ht, rfl⟩ := execRdst_eq_next.1 h
    exact .answers _ _ ht fun h => absurd rfl h
  | ackerr ovr ovsz =>
    obtain ⟨ht, rfl⟩ := execAckerr_eq_next.1 h
    exact .clears ovr ovsz ht hn
  | rxb b =>
    obtain ⟨he, rest, hr, ⟨hb, rfl⟩ | ⟨rfl, h'⟩⟩ := execRxb_eq_next.1 h
    · rcases receivePayload_cases b { taken s with rxIn := rest } with
        ⟨hi, h⟩ | ⟨hi, ho, h⟩ | ⟨hi, ho, h⟩ <;> rw [h]
      · exact .stores b rest hn he hr hb hi
      · exact .dropsMore b rest hn he hr hb hi ho
      · exact .marks b rest hn he hr hb hi ho
    · rcases receiveDelim_eq_next.1 h' with ⟨hd, rfl⟩ | ⟨hd, hi, rfl⟩
      · exact .discards rest hn he hr hd
      · exact .delivers rest hn he hr hd hi
  | txdone =>
    obtain ⟨seq, k, pol, ht, rfl⟩ := execTxdone_eq_next.1 h
    exact .completes seq k pol hn ht

/-- A step that answers a next state has one of the effects, and only an admitted instance takes one. -/
theorem step_effect {s t : State} (h : step s = .next t) : s.par.wf ∧ Effect s t := by
  obtain ⟨hw, h⟩ := step_next_cases h
  refine ⟨hw, ?_⟩
  rcases h with rfl | ⟨b, hi, rfl⟩ | ⟨hr, rfl⟩ | ⟨w, p, r, -, -, h⟩ | ⟨hh, h⟩ | ⟨i, hn, h⟩
  · exact .stutters
  · rcases arrive_cases b (taken s) with ⟨he, h⟩ | ⟨-, h⟩ <;> rw [h]
    · exact .arrives b hi he
    · exact .stutters
  · exact .resets hr
  · obtain ⟨ht, rfl⟩ := execIllegal_eq_next.1 h
    exact .answers _ _ ht fun _ => rfl
  · rcases hostMicroStep_eq_next.1 h with
      ⟨seq, k, pol, b, ht, hb, rfl⟩ | ⟨seq, k, pol, ht, rfl⟩ | ⟨_, _, _, _, rfl⟩ | ⟨_, rfl⟩
    · exact .issues seq k pol b hh ht hb
    · exact .releases seq k pol hh ht
    · exact .stutters
    · exact .stutters
  · exact exec_effect hn h

/-- The host's way of running the machine is `runSteps`. -/
theorem core_run_eq_runSteps (k : Nat) (s : State) : Sys2Proof.core.run k s = runSteps k s := by
  induction k generalizing s with
  | zero => rfl
  | succ k ih =>
    cases h : step s <;> have h' : Sys2Proof.core.step s = _ := h <;>
      simp only [Host.Core.run, runSteps, h, h']
    · exact ih _
    all_goals rfl

end Sys2Proof.Machine
end

