-- ==== Sys2Proof/Laws/Link.lean ====
section
/-! SUPPORT. What the link of two devices can do: when it carries bytes as they were sent, and what arrives. -/

namespace Sys2Proof.Machine

/-- Two transports are set alike. -/
theorem sameSettings_eq_true {s t : State} :
    sameSettings s t = true ↔ s.bitord = t.bitord ∧ s.mode = t.mode ∧ s.div = t.div ∧ s.x2 = t.x2 := by
  simp [sameSettings, and_assoc]

/-- The link's condition, clause by clause. -/
theorem linkMatched_eq_true {l : Link} :
    linkMatched l = true ↔ l.master.en = true ∧ l.slave.en = true ∧ l.master.role = .master ∧
      l.slave.role = .slave ∧ sameSettings l.master l.slave = true ∧ l.master.cs = l.selected := by
  simp [linkMatched, and_assoc]

/-- A device's step on one input is that input's step in the device's own state. -/
theorem deviceStep_of_wf {s : State} (i : Input) (hw : s.par.wf) : deviceStep i s = stepInput i s :=
  step_of_cons (s := { s with inputs := i :: s.inputs }) hw rfl

/-- With nothing on the wire nothing arrives. -/
theorem carryByte_of_empty {l : Link} (h : l.onWire = none) : carryByte l = .next l := by
  simp [carryByte, h]

/-- On a link that is not matched the wire's byte is not carried. -/
theorem carryByte_of_unmatched {l : Link} (h : linkMatched l = false) : carryByte l = .next l := by
  cases hb : l.onWire <;> simp [carryByte, hb, h]

/-- On a matched link the byte on the wire is appended to what waits at the slave, and the wire is empty. -/
theorem carryByte_of_matched {l : Link} {b : Byte} (hm : linkMatched l = true) (hw : l.slave.par.wf)
    (hb : l.onWire = some b) :
    carryByte l = .next { l with slave := { l.slave with rxIn := l.slave.rxIn ++ [b] }, onWire := none } := by
  obtain ⟨-, he, -, hr, -, -⟩ := linkMatched_eq_true.1 hm
  simp [carryByte, hb, hm, deviceStep_of_wf _ hw, stepInput, arrive, rxEnabled, he, hr, onNext]

end Sys2Proof.Machine
end

