-- ==== Sys2Proof/Laws/PerInstr.lean ====
section
/-! SUPPORT. The family `TableRow`: the word of every instruction has the fixed bits that its row of
spec/opcode_table.json gives it (columns "match" and "mask"). -/

namespace Sys2Proof.Laws.TableRow

/-- The column "mask" of an instruction's row. -/
def mask : Instr → Word16
  | .cfg .. => 0xFF00#16
  | .txb .. => 0xF700#16
  | .txs .. => 0xF7FF#16
  | .txi .. => 0xF700#16
  | .take => 0xFFFF#16
  | .rdsb _ => 0xFF00#16
  | .rdst => 0xFFFF#16
  | .ackerr .. => 0xFFFC#16
  | .rxb _ => 0xFF00#16
  | .txdone => 0xFFFF#16

/-- The column "match" of an instruction's row. -/
def fixedBits : Instr → Word16
  | .cfg .. => 0x1000#16
  | .txb .. => 0x2000#16
  | .txs .. => 0x3000#16
  | .txi .. => 0x4000#16
  | .take => 0x5000#16
  | .rdsb _ => 0x6000#16
  | .rdst => 0x7000#16
  | .ackerr .. => 0x8000#16
  | .rxb _ => 0x1000#16
  | .txdone => 0x2000#16

/-- The encoded word matches its row. -/
def Statement (i : Instr) : Prop := (encode i).word &&& mask i = fixedBits i

/-- The bits of a command word above its immediate. -/
theorem commandWord_and_FF00 (op : BitVec 4) (pol : BitVec 1) (imm : Byte) :
    commandWord op pol imm &&& 0xFF00#16 = commandWord op pol 0#8 := by
  apply BitVec.eq_of_getLsbD_eq
  intro i hi
  simp only [commandWord, BitVec.getLsbD_append, BitVec.getLsbD_and]
  interval_cases i <;> simp

/-- The bits of a command word above its immediate, the polarity left out. -/
theorem commandWord_and_F700 (op : BitVec 4) (pol : BitVec 1) (imm : Byte) :
    commandWord op pol imm &&& 0xF700#16 = commandWord op 0#1 0#8 := by
  apply BitVec.eq_of_getLsbD_eq
  intro i hi
  simp only [commandWord, BitVec.getLsbD_append, BitVec.getLsbD_and]
  interval_cases i <;> simp

/-- The bits of an event word above its data. -/
theorem eventWord_and_FF00 (evt : BitVec 4) (data : Byte) :
    eventWord evt data &&& 0xFF00#16 = eventWord evt 0#8 := by
  apply BitVec.eq_of_getLsbD_eq
  intro i hi
  simp only [eventWord, BitVec.getLsbD_append, BitVec.getLsbD_and]
  interval_cases i <;> simp

theorem cfg (en x2 : Bool) (div mode : BitVec 2) (bitord : BitOrder) (role : Role) :
    Statement (.cfg en x2 div mode bitord role) :=
  (commandWord_and_FF00 _ _ _).trans rfl

theorem txb (pol : Polarity) (b : Byte) : Statement (.txb pol b) :=
  (commandWord_and_F700 _ _ _).trans rfl

theorem txs (pol : Polarity) (text : List Byte) : Statement (.txs pol text) := by
  cases pol
  · exact (by decide : commandWord 0x3#4 0#1 0#8 &&& 0xF7FF#16 = 0x3000#16)
  · exact (by decide : commandWord 0x3#4 1#1 0#8 &&& 0xF7FF#16 = 0x3000#16)

theorem txi (pol : Polarity) (w : Nat) (value : U64) : Statement (.txi pol w value) :=
  (commandWord_and_F700 _ _ _).trans rfl

theorem take : Statement .take := rfl

theorem rdsb (i : Nat) : Statement (.rdsb i) :=
  (commandWord_and_FF00 _ _ _).trans rfl

theorem rdst : Statement .rdst := rfl

theorem ackerr (ovr ovsz : Bool) : Statement (.ackerr ovr ovsz) := by
  cases ovr <;> cases ovsz <;> exact rfl

theorem rxb (b : Byte) : Statement (.rxb b) :=
  (eventWord_and_FF00 _ _).trans rfl

theorem txdone : Statement .txdone := rfl

end Sys2Proof.Laws.TableRow
end

