-- ==== Sys2Proof/Tests/Slice0.lean ====
section
/-! SUPPORT. Tests. The words are written out from the formats of 30_encoding.md, the expected results are those of
95_test_vectors.md (each test names its vector), and the witnesses show states and operands that meet the hypotheses
of each statement of Certificates/Slice0/Obligations.lean. -/

namespace Sys2Proof.Tests

open Sys2Proof Sys2Proof.Machine

-- ---- Decoding: the words of section 2.1 of the vectors, bit by bit

theorem test_decode_cfg :
    decodeCommand 0b0001_0_000_1_0_00_00_0_1#16 {} = .ok (.cfg true false 0#2 0#2 .msbFirst .master) ∧
    decodeCommand 0b0001_0_000_1_1_11_11_1_1#16 {} = .ok (.cfg true true 3#2 3#2 .lsbFirst .master) ∧
    decodeCommand 0b0001_0_000_0_1_10_01_1_0#16 {} = .ok (.cfg false true 2#2 1#2 .lsbFirst .slave) ∧
    decodeCommand 0b0001_0_001_1_0_00_00_0_1#16 {} = .error .reservedBits ∧
    decodeCommand 0b0001_1_000_1_0_00_00_0_1#16 {} = .error .polarityUnused := by decide

theorem test_decode_transmit :
    decodeCommand 0b0010_0_000_01000001#16 {} = .ok (.txb .dflt 0x41#8) ∧
    decodeCommand 0b0010_1_000_01000001#16 {} = .ok (.txb .inv 0x41#8) ∧
    decodeCommand 0b0010_1_100_01000001#16 {} = .error .reservedBits ∧
    decodeCommand 0b0011_0_000_00000000#16 { text := [0x54#8] } = .ok (.txs .dflt [0x54#8]) ∧
    decodeCommand 0b0011_1_000_00000000#16 {} = .ok (.txs .inv []) ∧
    decodeCommand 0b0011_0_000_00000001#16 {} = .error .immediateUnused ∧
    decodeCommand 0b0100_0_000_00001001#16 { value := 7#64 } = .ok (.txi .dflt 9 7#64) ∧
    decodeCommand 0b0100_1_000_11111111#16 {} = .ok (.txi .inv 255 0#64) := by decide

theorem test_decode_reader :
    decodeCommand 0b0101_0_000_00000000#16 {} = .ok .take ∧
    decodeCommand 0b0101_0_000_00000001#16 {} = .error .immediateUnused ∧
    decodeCommand 0b0101_1_000_00000000#16 {} = .error .polarityUnused ∧
    decodeCommand 0b0110_0_000_11111111#16 {} = .ok (.rdsb 255) ∧
    decodeCommand 0b0110_1_000_00000000#16 {} = .error .polarityUnused := by decide

theorem test_decode_status :
    decodeCommand 0b0111_0_000_00000000#16 {} = .ok .rdst ∧
    decodeCommand 0b0111_0_000_00010000#16 {} = .error .immediateUnused ∧
    decodeCommand 0b1000_0_000_000000_1_1#16 {} = .ok (.ackerr true true) ∧
    decodeCommand 0b1000_0_000_000000_1_0#16 {} = .ok (.ackerr false true) ∧
    decodeCommand 0b1000_0_000_000001_0_0#16 {} = .error .clearBitsUnused := by decide

theorem test_decode_unused_opcodes :
    decodeCommand 0x0000#16 {} = .error .unusedOpcode ∧ decodeCommand 0x9000#16 {} = .error .unusedOpcode ∧
    decodeCommand 0xF0FF#16 {} = .error .unusedOpcode ∧ decodeCommand 0xFFFF#16 {} = .error .reservedBits := by
  decide

theorem test_decode_events :
    decodeEvent 0b0001_0000_01000001#16 = .ok (.rxb 0x41#8) ∧
    decodeEvent 0b0001_0000_00001101#16 = .ok (.rxb 0x0D#8) ∧
    decodeEvent 0b0001_0000_00000000#16 = .ok (.rxb 0x00#8) ∧
    decodeEvent 0b0010_0000_00000000#16 = .ok .txdone ∧
    decodeEvent 0b0010_0000_00000001#16 = .error .dataUnused ∧
    decodeEvent 0b0001_0001_01000001#16 = .error .reservedBits ∧
    decodeEvent 0b0011_0000_00000000#16 = .error .unknownKind := by decide

/-- A table word is read on the host command port (log entry 3). -/
theorem test_table_word :
    decodeTableWord 16 0x60FF = some (.rdsb 255) ∧ decodeTableWord 16 0x1081 =
      some (.cfg true false 0#2 0#2 .msbFirst .master) ∧ decodeTableWord 16 0x9000 = none := by decide

-- ---- The assembler: the examples of R85, and the events of R87

theorem test_assemble_cfg :
    assemble "CFG en=1, role=master" = some (.cfg true false 0#2 0#2 .msbFirst .master) := by decide

theorem test_assemble_txb : assemble "TXB.inv 0x41" = some (.txb .inv 0x41#8) := by decide

theorem test_assemble_txs :
    assemble "TXS \"TOGGLE\"" =
      some (.txs .dflt [0x54#8, 0x4F#8, 0x47#8, 0x47#8, 0x4C#8, 0x45#8]) := by decide

theorem test_assemble_txs_list :
    assemble "TXS [0x41, 0x00, 0x0D]" = some (.txs .dflt [0x41#8, 0x00#8, 0x0D#8]) := by decide

theorem test_assemble_txi : assemble "TXI 2, 0x1234" = some (.txi .dflt 2 0x1234#64) := by decide

theorem test_assemble_rdsb : assemble "RDSB 5" = some (.rdsb 5) ∧ (encode (.rdsb 5)).word = 0x6005#16 := by
  decide

theorem test_assemble_ackerr :
    assemble "ACKERR ovr, ovsz" = some (.ackerr true true) ∧ assemble "ACKERR" = some (.ackerr false false) := by
  decide

theorem test_assemble_events :
    assemble "@RXB 0x0D" = some (.rxb 0x0D#8) ∧ assemble "@TXDONE" = some .txdone ∧
    assemble "RXB 0x0D" = none := by decide

-- ---- Well-formedness: what the checks refuse

theorem test_wf_refuses_wide_txi : (Instr.txi .dflt 256 0#64).wf = false := by decide

theorem test_wf_refuses_large_index : (Instr.rdsb 256).wf = false := by decide

theorem test_wf_refuses_no_capacity : ¬ ({ capacity := 0 } : Params).wf := by decide

theorem test_wf_refuses_large_capacity : ¬ ({ capacity := 256 } : Params).wf := by decide

theorem test_wf_admits :
    (Instr.txi .dflt 255 0#64).wf = true ∧ (Instr.rdsb 255).wf = true ∧ Params.standard.wf ∧
    ({ capacity := 255 } : Params).wf := by decide

-- ---- Small states, in the vectors' own names

/-- `SLAVE` of the vectors, for an instance with parameters `p`. -/
def slaveOf (p : Params) : State := { State.resetWith p with en := true }

def slave : State := slaveOf Params.standard

/-- `MASTER` of the vectors. -/
def master : State := { State.reset with en := true, role := .master }

/-- The master with `TXB 0x41` under way. -/
def sending (k : Nat) (phase : Phase) (trace : List WireEvent) : State :=
  { master with tx := .busy [0x41#8, 0x0D#8] k .dflt phase, cs := false, trace := trace }

/-- A slave with `L = 3` whose staging buffer is full. -/
def full (p : OversizePolicy) (ovf : Bool) : State :=
  { slaveOf { capacity := 3, oversize := p } with
    stg := [(0, 0x41#8), (1, 0x42#8), (2, 0x43#8)], rxIdx := 3#8, rxOvf := ovf
    ovszCnt := if ovf then 1#8 else 0#8 }

/-- A slave with the frame `0x12 0x34` in its slot. -/
def holding : State :=
  { slave with slot := [(0, 0x12#8), (1, 0x34#8)], slotLen := 2#8, ready := true }

/-- A state with one entry scheduled. -/
def given (i : Input) (s : State) : State := { s with inputs := [i] }

/-- A state with a byte that waits and the event that delivers it scheduled. -/
def delivering (b : Byte) (s : State) : State :=
  { s with rxIn := [b], inputs := [.event (0x1000#16 ||| b.setWidth 16)] }

/-- What a step found of the state it left. -/
def found {α : Type} (f : State → α) : Result → Option α
  | .next t => some (f t)
  | .fault _ => none
  | .refused _ => none

/-- The code and data of the last response. -/
def lastResponse (s : State) : Option (RespCode × Word32) := s.responses.getLast?.map (fun r => (r.code, r.data))

-- ---- One step of each instruction

/-- V-CS5. -/
theorem test_cfg_all_fields :
    found (fun t => (t.en, t.x2, t.div, t.mode, t.bitord, t.role)) (step (given (.command 0x10FF#16 {}) State.reset)) =
      some (true, true, 3#2, 3#2, .lsbFirst, .master) := by decide

/-- V-CS7. -/
theorem test_rdst_full_buffer :
    found lastResponse (step (given (.command 0x7000#16 {}) (full .discard true))) =
      some (some (.ok, 0x0301001A#32)) := by decide

/-- V-CS1. -/
theorem test_rdst_after_reset :
    found lastResponse (step (given (.command 0x7000#16 {}) State.reset)) = some (some (.ok, 0x00000008#32)) := by
  decide

/-- V-CS1 again, the word placed as the first thing that runs after reset. -/
theorem test_with_fetch_word :
    found lastResponse (step (State.reset.withFetchWord 16 0x7000)) = some (some (.ok, 0x00000008#32)) := by decide

/-- V-CS8. -/
theorem test_ackerr_ovr :
    found (fun t => (t.ovrCnt, t.ovszCnt))
      (step (given (.command 0x8001#16 {}) { slave with ovrCnt := 3#8, ovszCnt := 1#8 })) = some (0#8, 1#8) := by
  decide

/-- The example of R120. -/
theorem test_take_drains :
    found (fun t => (lastResponse t, t.slotLen, t.ready)) (step (given (.command 0x5000#16 {}) holding)) =
      some (some (.ok, 0x00000201#32), 0#8, false) ∧
    found (fun t => t.stb) (step (given (.command 0x5000#16 {}) holding)) = some [(0, 0x12#8), (1, 0x34#8)] := by
  decide

/-- V-TK10, its second `TAKE`: the old byte is padded over. -/
theorem test_take_pads :
    found (fun t => t.stb) (step (given (.command 0x5000#16 {})
      { slaveOf { capacity := 3 } with
        stb := [(0, 0x41#8), (1, 0x42#8)], slot := [(0, 0x43#8)], slotLen := 1#8, ready := true })) =
      some [(0, 0x43#8)] := by decide

/-- V-TK3 and V-TK4: the last legal index, and the first illegal one. -/
theorem test_rdsb_edges :
    found lastResponse (step (given (.command 0x6032#16 {}) State.reset)) = some (some (.ok, 0#32)) ∧
    found lastResponse (step (given (.command 0x6033#16 {}) State.reset)) = some (some (.indexRange, 0#32)) := by
  decide

/-- The example of R124. -/
theorem test_rdsb_byte :
    found lastResponse (step (given (.command 0x6001#16 {}) { slave with stb := [(0, 0x12#8), (1, 0x34#8)] })) =
      some (some (.ok, 0x00000034#32)) := by decide

/-- V-RX6, its last byte. -/
theorem test_rxb_oversize :
    found (fun t => (t.stg, t.rxIdx, t.rxOvf, t.ovszCnt)) (step (delivering 0x44#8 (full .discard false))) =
      some ([(0, 0x41#8), (1, 0x42#8), (2, 0x43#8)], 3#8, true, 1#8) := by decide

/-- V-RX12: the counter saturates; the empty frame replaces the one in the slot. -/
theorem test_rxb_overrun_saturates :
    found (fun t => (t.ovrCnt, t.slotLen, t.ready)) (step (delivering 0x0D#8 { holding with ovrCnt := 255#8 })) =
      some (255#8, 0#8, true) := by decide

/-- V-SL1, the issuing step. -/
theorem test_txb_asserts :
    found (fun t => (t.tx, t.cs, t.trace)) (step (given (.command 0x2041#16 {}) master)) =
      some (.busy [0x41#8, 0x0D#8] 0 .dflt .issue, false, [.cs true, .cs false]) := by decide

/-- V-TX2. -/
theorem test_txb_delimiter :
    found lastResponse (step (given (.command 0x200D#16 {}) master)) = some (some (.delimInPayload, 0#32)) := by decide

/-- V-TX7: the bytes after the first null are neither sent nor checked. -/
theorem test_txs_stops_at_null :
    found (fun t => t.tx) (step (given (.command 0x3000#16 { text := [0x41#8, 0x00#8, 0x0D#8] }) master)) =
      some (.busy [0x41#8, 0x0D#8] 0 .dflt .issue) := by decide

/-- V-TX14. -/
theorem test_txi_big_endian :
    found (fun t => t.tx) (step (given (.command 0x4008#16 { value := 0x0102030405060708#64 }) master)) =
      some (.busy [1#8, 2#8, 3#8, 4#8, 5#8, 6#8, 7#8, 8#8, 0x0D#8] 0 .dflt .issue) := by decide

/-- V-ER4: `BAD_WIDTH` before `DELIM_IN_PAYLOAD`. -/
theorem test_txi_priority :
    found lastResponse (step (given (.command 0x4809#16 { value := 0x0D#64 }) master)) =
      some (some (.badWidth, 0#32)) := by decide

/-- The example of R144, and the last row of V-SL1 but one. -/
theorem test_txdone :
    found (fun t => t.tx) (step (given (.event 0x2000#16) (sending 0 .wait []))) =
      some (.busy [0x41#8, 0x0D#8] 1 .dflt .issue) ∧
    found (fun t => t.tx) (step (given (.event 0x2000#16) (sending 1 .wait []))) =
      some (.busy [0x41#8, 0x0D#8] 2 .dflt .release) := by decide

/-- V-SL1, `S3`. -/
theorem test_release :
    found (fun t => (t.tx, t.cs, t.trace, lastResponse t)) (step (given .hostStep (sending 2 .release []))) =
      some (.idle, true, [.cs true], some (.ok, 0#32)) := by decide

/-- V-RX16: a master's transport discards what arrives. -/
theorem test_arrive_at_master : found (fun t => t.rxIn) (step (given (.arrive 0x41#8) master)) = some [] := by decide

/-- V-RS2. -/
theorem test_reset_while_sending :
    found (fun t => (t.trace, t.tx, t.en, t.role, t.responses))
      (step (given .reset (sending 1 .issue [.cs true, .cs false, .byte 0x41#8]))) =
      some ([.cs true, .cs false, .byte 0x41#8, .cs true], .idle, false, .slave, []) := by decide

/-- The table of R81. -/
theorem test_response_codes :
    respCodeBits .ok = 0x0#4 ∧ respCodeBits .illegal = 0x1#4 ∧ respCodeBits .notMaster = 0x2#4 ∧
    respCodeBits .badWidth = 0x3#4 ∧ respCodeBits .delimInPayload = 0x4#4 ∧ respCodeBits .indexRange = 0x5#4 := by
  decide

/-- V-CD3, V-CD8, V-CD10 and V-CD12. -/
theorem test_codec :
    bytesToU64 [1#8, 2#8, 3#8, 4#8, 5#8, 6#8, 7#8, 8#8, 9#8] = 0x0203040506070809#64 ∧
    bytesEqualString [0x54#8] [0x54#8, 0x4F#8] = -1 ∧
    bytesEqualString [0x41#8, 0x00#8, 0x42#8] [0x41#8] = 0 ∧ bytesEqualString [0x80#8] [0x41#8] = 1 := by decide

-- ---- Witnesses: states and operands that meet the hypotheses of the statements

theorem witness_DecodeOfEncodeIsTheInstruction :
    (Instr.rdsb 255).wf = true ∧ (Instr.txi .inv 255 0xFFFFFFFFFFFFFFFF#64).wf = true := by decide

theorem witness_EncodeOfDecodedWordIsTheWord :
    decode { port := .host, word := 0x3800#16, payload := { text := [0x41#8] } } = .ok (.txs .inv [0x41#8]) ∧
    decode { port := .host, word := 0x40FF#16, payload := { value := 5#64 } } = .ok (.txi .dflt 255 5#64) ∧
    decode { port := .transport, word := 0x2000#16 } = .ok .txdone := by decide

theorem witness_LegalWordsOfEachOpcode : 0x8003 < 65536 ∧ 0xFFFF < 65536 := by decide

theorem witness_IllegalWordsAreAnsweredIllegal :
    let s := given (.command 0x8004#16 {}) slave
    s.par.wf ∧ s.tx = .idle ∧ s.inputs = [.command 0x8004#16 {}] ∧
      decodeCommand 0x8004#16 {} = .error .clearBitsUnused := by decide

theorem witness_CommandsWithAnIdleSequencer :
    State.reset.tx = .idle ∧ slave.tx = .idle ∧ master.tx = .idle ∧ holding.tx = .idle := by decide

theorem witness_TakeDrainsTheSlot_empty : State.reset.tx = .idle ∧ State.reset.ready = false := by decide

/-- A frame of two bytes, and one of exactly `L` bytes. -/
theorem witness_TakeDrainsTheSlot :
    (holding.tx = .idle ∧ holding.ready = true ∧ holding.slotLen.toNat ≤ holding.par.capacity ∧
      holding.stb.wf ∧ holding.slot.wf) ∧
    let s := { slaveOf { capacity := 2 } with slot := [(0, 0x12#8), (1, 0x34#8)], slotLen := 2#8, ready := true }
    s.tx = .idle ∧ s.ready = true ∧ s.slotLen.toNat ≤ s.par.capacity ∧ s.stb.wf ∧ s.slot.wf := by decide

theorem witness_RdsbAnswersOneByte :
    State.reset.tx = .idle ∧ 50 < State.reset.par.capacity ∧ State.reset.par.capacity ≤ 51 := by decide

theorem witness_StableBufferIsWrittenOnlyByTake :
    found (fun t => decide (t.stb ≠ holding.stb)) (step (given (.command 0x5000#16 {}) holding)) = some true := by
  decide

/-- The first and the last cell. -/
theorem witness_RxbStoresAPayloadByte :
    let s := delivering 0x41#8 slave
    let t := { delivering 0x41#8 slave with rxIdx := 50#8 }
    (s.par.wf ∧ s.stg.wf ∧ s.en = true ∧ s.role = .slave ∧ s.rxIn = [0x41#8] ∧ (0x41#8 ≠ 0x0D#8) ∧
      s.rxIdx.toNat < s.par.capacity) ∧ t.rxIdx.toNat < t.par.capacity ∧ ¬ t.rxIdx.toNat + 1 < t.par.capacity := by
  decide

theorem witness_RxbDropsAnOversizeByte :
    let s := delivering 0x44#8 (full .discard false)
    (s.en = true ∧ s.role = .slave ∧ s.rxIn = [0x44#8] ∧ (0x44#8 ≠ 0x0D#8) ∧ s.rxIdx.toNat = s.par.capacity) ∧
      s.stg.wf ∧ found (fun _ => true) (exec (.rxb 0x44#8) s) = some true ∧ s.par.capacity ≤ 3 := by decide

/-- An admitted frame of each kind: not oversize, and oversize under `Truncate`. -/
theorem witness_RxbDelimiterMovesTheFrame :
    let s := delivering 0x0D#8 holding
    let t := delivering 0x0D#8 (full .truncate true)
    (s.slot.wf ∧ s.en = true ∧ s.role = .slave ∧ s.rxIn = [0x0D#8] ∧ s.rxOvf = false ∧
      s.rxIdx.toNat ≤ s.par.capacity) ∧
    (t.slot.wf ∧ t.en = true ∧ t.role = .slave ∧ t.rxIn = [0x0D#8] ∧ t.par.oversize = .truncate ∧
      t.rxIdx.toNat ≤ t.par.capacity) := by decide

theorem witness_RxbDelimiterOfAnOversizeFrame :
    let s := delivering 0x0D#8 (full .discard true)
    let t := delivering 0x0D#8 (full .truncate true)
    (s.slot.wf ∧ s.en = true ∧ s.role = .slave ∧ s.rxIn = [0x0D#8] ∧ s.rxOvf = true ∧
      s.rxIdx.toNat = s.par.capacity ∧ s.par.oversize = .discard) ∧
    (t.rxOvf = true ∧ t.rxIdx.toNat = t.par.capacity ∧ t.par.oversize = .truncate) := by decide

/-- A replaced frame below the limit of the counter. -/
theorem witness_OverrunIsAReplacedFrame :
    let s := delivering 0x0D#8 holding
    found (fun t => decide (s.ovrCnt.toNat < t.ovrCnt.toNat)) (step s) = some true ∧
      nextInstr s = some (.rxb 0x0D#8) ∧ s.ready = true ∧ s.rxOvf = false := by decide

theorem witness_FramerLeavesTheHostSideAlone :
    found (fun t => t.rxIdx) (exec (.rxb 0x41#8) (delivering 0x41#8 holding)) = some 1#8 ∧ holding.ready = true := by
  decide

/-- A delimiter, and a `TAKE`. -/
theorem witness_SlotChangesOnlyAsAWhole :
    found (fun t => decide (t.ready ≠ slave.ready)) (step (delivering 0x0D#8 slave)) = some true ∧
    found (fun t => decide (t.slot ≠ holding.slot)) (step (given (.command 0x5000#16 {}) holding)) = some true := by
  decide

/-- The payload `0x41 0x42` into an instance with `L = 2`. -/
theorem witness_DeliveredFrameIsTakenIntact :
    let s := { slaveOf { capacity := 2 } with
      inputs := [.arrive 0x41#8, .event 0x1041#16, .arrive 0x42#8, .event 0x1042#16, .arrive 0x0D#8,
        .event 0x100D#16, .command 0x5000#16 {}] }
    s.par.wf ∧ s.stg.wf ∧ s.slot.wf ∧ s.stb.wf ∧ s.tx = .idle ∧ s.en = true ∧ s.role = .slave ∧ s.rxIn = [] ∧
      s.rxIdx = 0#8 ∧ s.rxOvf = false ∧ [0x41#8, 0x42#8].length ≤ s.par.capacity ∧
      (0x0D#8 : Byte) ∉ [0x41#8, 0x42#8] ∧
      s.inputs = ([0x41#8, 0x42#8] ++ [0x0D#8]).flatMap
        (fun b : Byte => [Input.arrive b, Input.event (0x1000#16 ||| b.setWidth 16)]) ++
          Input.command 0x5000#16 {} :: [] := by decide

theorem witness_TxsSendsUpToTheFirstNull :
    master.tx = .idle ∧ (0#8 : Byte) ∉ [0x41#8] ∧ [0x00#8, 0x0D#8].head? = some (0#8 : Byte) := by decide

theorem witness_TxiSendsTheLowBytesBigEndian :
    master.tx = .idle ∧ [0x12#8, 0x34#8] =
      (List.range 2).map (fun j => ((0x1234#64 : U64) >>> (8 * (2 - 1 - j))).setWidth 8) := by decide

theorem witness_IssueStepSendsTheNextByte :
    let s := given .hostStep (sending 1 .issue [])
    s.par.wf ∧ s.inputs = [.hostStep] ∧ s.tx = .busy [0x41#8, 0x0D#8] 1 .dflt .issue ∧
      [0x41#8, 0x0D#8][1]? = some 0x0D#8 := by decide

theorem witness_TxdoneMovesToTheNextByte :
    (sending 0 .wait []).tx = .busy [0x41#8, 0x0D#8] 0 .dflt .wait ∧
    (sending 1 .wait []).tx = .busy [0x41#8, 0x0D#8] 1 .dflt .wait := by decide

theorem witness_TxdoneMovesToTheNextByte_refused :
    (¬ ∃ seq k pol, master.tx = .busy seq k pol .wait) ∧
    (¬ ∃ seq k pol, (sending 0 .issue []).tx = .busy seq k pol .wait) :=
  ⟨(fun ⟨_, _, _, h⟩ => by cases h), fun ⟨_, _, _, h⟩ => by cases h⟩

/-- The one step that puts a byte on the wire, and the two that make the sequencer idle. -/
theorem witness_MicroStepsSeenFromOutside :
    found (fun t => decide (t.trace = [.cs true] ++ [.byte 0x0D#8]))
      (step (given .hostStep (sending 1 .issue [.cs true]))) = some true ∧
    found (fun t => decide (t.tx = .idle)) (step (given .hostStep (sending 2 .release []))) = some true ∧
    found (fun t => decide (t.tx = .idle)) (step (given .reset (sending 1 .wait []))) = some true ∧
    (sending 2 .release []).tx ≠ .idle ∧ (sending 1 .wait []).tx ≠ .idle := by decide

theorem witness_ReleaseStepAnswers :
    let s := given .hostStep (sending 2 .release [])
    s.par.wf ∧ s.inputs = [.hostStep] ∧ s.tx = .busy [0x41#8, 0x0D#8] 2 .dflt .release := by decide

theorem witness_FrameStaysWholeOnTheWire :
    frameOnWire (given .hostStep (sending 1 .issue [.cs true, .cs false, .byte 0x41#8])) :=
  ⟨[.cs true], rfl⟩

/-- The step of that state answers. -/
theorem witness_FrameStaysWholeOnTheWire_steps :
    found (fun t => t.trace) (step (given .hostStep (sending 1 .issue [.cs true, .cs false, .byte 0x41#8]))) =
      some [.cs true, .cs false, .byte 0x41#8, .byte 0x0D#8] := by decide

/-- The master at the end of its frame. -/
def releasing : State :=
  given .hostStep (sending 2 .release [.cs true, .cs false, .byte 0x41#8, .byte 0x0D#8])

theorem witness_CompletedFrameIsOnTheWire :
    releasing.par.wf ∧ frameOnWire releasing ∧ Consistent releasing ∧ releasing.inputs = [.hostStep] ∧
      releasing.tx = .busy [0x41#8, 0x0D#8] 2 .dflt .release :=
  ⟨by decide, ⟨[.cs true], rfl⟩,
    ⟨by decide, by decide, by decide, by decide,
      ⟨rfl, rfl, rfl, by decide, by decide, by decide⟩⟩, rfl, rfl⟩

theorem witness_FairTransportCompletesAFrame :
    let s := { sending 0 .issue [] with par := { transportFair := true } }
    s.par.wf ∧ s.par.transportFair = true ∧ s.inputs = [] ∧ [0x41#8, 0x0D#8] ≠ [] ∧
      s.tx = .busy [0x41#8, 0x0D#8] 0 .dflt .issue := by decide

/-- Steps that are taken while the frame hangs: a turn of the HOST, and a byte that is discarded. -/
theorem witness_NoCompletionHangsTheFrame :
    let s := { sending 0 .wait [] with inputs := [.hostStep, .arrive 0x55#8] }
    s.tx = .busy [0x41#8, 0x0D#8] 0 .dflt .wait ∧ s.par.transportFair = false ∧
      (∀ i ∈ s.inputs, i ≠ .reset ∧ ∀ w, i = .event w → decodeEvent w ≠ .ok .txdone) ∧
      found (fun t => t.inputs) (runSteps 2 s) = some [] := by
  refine ⟨rfl, rfl, ?_, by decide⟩
  intro i hi
  rcases List.mem_cons.1 hi with rfl | hi
  · exact ⟨by decide, fun w h => by cases h⟩
  · rcases List.mem_singleton.1 hi with rfl
    exact ⟨by decide, fun w h => by cases h⟩

theorem witness_ErrorsChangeNothing :
    found (fun t => decide (t.responses = slave.responses ++ [⟨.notMaster, 0#32⟩]))
      (step (given (.command 0x2041#16 {}) slave)) = some true ∧ RespCode.notMaster ≠ .ok := by decide

theorem witness_StepsThatAnswer :
    found (fun t => t.trace.length) (step (given (.command 0x2041#16 {}) master)) = some 2 ∧
    found (fun t => t.responses.length) (step (given (.command 0x7000#16 {}) master)) = some 1 := by decide

/-- Each input that is refused: the capacities outside the range, the event words, a completion with no byte being
sent, a delivery with nothing to deliver or not enabled, and a second command. -/
theorem witness_ForbiddenInputsAreRefused :
    (¬ (1 ≤ (State.resetWith { capacity := 0 }).par.capacity ∧ (State.resetWith { capacity := 0 }).par.capacity ≤ 255)) ∧
    (¬ (1 ≤ (State.resetWith { capacity := 256 }).par.capacity ∧
      (State.resetWith { capacity := 256 }).par.capacity ≤ 255)) ∧
    decodeEvent 0x2001#16 = .error .dataUnused ∧ State.reset.tx = .idle ∧ State.reset.en = false ∧
    master.role = .master ∧ slave.rxIn = [] ∧ (sending 0 .wait []).tx ≠ .idle := by decide

theorem witness_ArrivalsWaitInOrder :
    let s := given (.arrive 0x41#8) slave
    s.par.wf ∧ s.inputs = [.arrive 0x41#8] ∧ s.en = true ∧ s.role = .slave := by decide

/-- The last index the premise admits, with the interrupt enabled and pending. -/
theorem witness_InterruptIsTakenWhenEnabledAndPending :
    let s := delivering 0x44#8 (full .discard false)
    s.rxIdx.toNat ≤ s.par.capacity ∧ s.en = true ∧ s.role = .slave ∧ s.rxIn.head? = some 0x44#8 := by decide

theorem witness_PendingBytesAreDeliveredInOrder :
    found (fun t => t.rxIn) (step (given (.arrive 0x41#8) { slave with rxIn := [0x40#8] })) =
      some [0x40#8, 0x41#8] ∧
    found (fun t => t.rxIn) (step (delivering 0x41#8 slave)) = some [] ∧
    (given (.arrive 0x41#8) slave).inputs.head? ≠ some .reset ∧
    (delivering 0x41#8 slave).inputs.head? ≠ some .reset := by decide

theorem witness_LinkCarriesTheIssuedByte :
    let l : Link := { master := sending 0 .issue [], slave := slave, onWire := none, selected := false }
    l.master.par.wf ∧ l.slave.par.wf ∧ linkMatched l = true ∧ l.onWire = none ∧
      l.master.tx = .busy [0x41#8, 0x0D#8] 0 .dflt .issue ∧ [0x41#8, 0x0D#8][0]? = some 0x41#8 := by decide

/-- A completion that comes before the arrival brings it with it, and an arrival with nothing on the wire is none. -/
theorem test_link_completion_brings_arrival :
    let l : Link := { master := sending 0 .wait [], slave := slave, onWire := some 0x41#8, selected := false }
    let rxAfter (r : Host.Outcome Link Fault Refusal) : Option (List Byte × Option Byte) :=
      match r with
      | .next m => some (m.slave.rxIn, m.onWire)
      | .fault _ => none
      | .refused _ => none
    rxAfter (linkStep (.onMaster (.event 0x2000#16)) l) = some ([0x41#8], none) ∧
    rxAfter (linkStep (.onSlave (.arrive 0x55#8)) l) = some ([0x41#8], none) ∧
    rxAfter (linkStep .carry { l with onWire := none }) = some ([], none) := by decide

/-- Devices that differ in the divisor alone, the master waiting; and a link that is matched. -/
theorem witness_MismatchedLinkDeliversAnyBytes :
    (let l : Link := { master := sending 0 .wait [], slave := { slave with div := 1#2 }, onWire := some 0x41#8,
                       selected := false }
     l.master.par.wf ∧ l.slave.par.wf ∧ l.slave.role = .slave ∧ l.master.div ≠ l.slave.div ∧
       l.master.tx = .busy [0x41#8, 0x0D#8] 0 .dflt .wait ∧ linkMatched l = false) ∧
    (let l : Link := { master := sending 0 .wait [], slave := slave, onWire := none, selected := false }
     linkMatched l = true ∧ l.onWire = none ∧ linkMatched { l with onWire := some 0x41#8 } = true) ∧
    linkMatched { master := sending 0 .wait [], slave := { slave with x2 := true }, onWire := none,
                  selected := false } = false := by decide

theorem witness_ResetAbandonsEverything :
    let s := given .reset (sending 1 .issue [])
    s.par.wf ∧ s.inputs = [.reset] := by decide

theorem witness_StepRunsTheDecodedInstruction :
    (let s := given (.command 0x5000#16 {}) holding
     s.par.wf ∧ s.inputs = [.command 0x5000#16 {}] ∧ decodeCommand 0x5000#16 {} = .ok .take) ∧
    (let s := delivering 0x41#8 slave
     s.par.wf ∧ s.inputs = [.event 0x1041#16] ∧ decodeEvent 0x1041#16 = .ok (.rxb 0x41#8)) := by decide

/-- A consistent state in the middle of a frame, and its step. -/
theorem witness_Consistent : Consistent releasing ∧ found (fun t => t.tx) (step releasing) = some .idle :=
  ⟨witness_CompletedFrameIsOnTheWire.2.2.1, by decide⟩

theorem witness_BuffersOk :
    BuffersOk (given (.command 0x5000#16 {}) holding) ∧
      found (fun t => t.ready) (step (given (.command 0x5000#16 {}) holding)) = some false :=
  ⟨⟨by decide, by decide, by decide, by decide, by decide, by decide⟩, by decide⟩

theorem witness_TraceEndsAtTheLevelOfTheLine :
    lastLevel releasing.trace = some releasing.cs ∧ found (fun t => t.cs) (step releasing) = some true := by decide

/-- One step for each clause of R40. -/
theorem witness_EachElementHasItsWriters :
    (let s := delivering 0x41#8 slave
     found (fun t => decide (t.stg ≠ s.stg ∧ t.rxIdx ≠ s.rxIdx)) (step s) = some true) ∧
    (let s := delivering 0x0D#8 slave
     found (fun t => decide (s.ready = false ∧ t.ready = true)) (step s) = some true) ∧
    (let s := given (.command 0x5000#16 {}) holding
     found (fun t => decide (s.ready = true ∧ t.ready = false ∧ t.slotLen ≠ s.slotLen ∧ t.stb ≠ s.stb)) (step s) =
       some true) ∧
    (let s := given (.command 0x1080#16 {}) State.reset
     found (fun t => decide (t.en ≠ s.en)) (step s) = some true) ∧
    (let s := delivering 0x0D#8 holding
     found (fun t => decide (s.ovrCnt.toNat < t.ovrCnt.toNat)) (step s) = some true) ∧
    (let s := given (.command 0x8003#16 {}) { slave with ovrCnt := 3#8, ovszCnt := 1#8 }
     found (fun t => decide (t.ovrCnt.toNat < s.ovrCnt.toNat ∧ t.ovszCnt.toNat < s.ovszCnt.toNat)) (step s) =
       some true) ∧
    found (fun t => decide (t.cs ≠ releasing.cs ∧ t.tx ≠ releasing.tx)) (step releasing) = some true := by decide

theorem witness_EachElementHasItsWriters_reset :
    resetsNext (given .reset slave) ∧ (given .reset slave).par.wf := ⟨rfl, by decide⟩

theorem witness_TransportFieldsChangeNoRule :
    withoutTransportFields { slave with mode := 3#2, div := 1#2 } = withoutTransportFields { slave with x2 := true } ∧
      ({ slave with mode := 3#2, div := 1#2 } : State) ≠ { slave with x2 := true } := by decide

/-- A stale cell of the slot, which the `TAKE` that runs next does not read. -/
theorem witness_StaleCellsAreNeverObserved :
    let s := given (.command 0x5000#16 {}) holding
    let t := { given (.command 0x5000#16 {}) holding with slot := [(0, 0x12#8), (1, 0x34#8), (2, 0x56#8)] }
    Consistent s ∧ BuffersOk s ∧ BuffersOk t ∧ sameButStale s t ∧ s ≠ t ∧
      found (fun u => u.ready) (step s) = some false :=
  ⟨⟨by decide, by decide, by decide, by decide, trivial⟩, witness_BuffersOk.1,
    ⟨by decide, by decide, by decide, by decide, by decide, by decide⟩,
    ⟨rfl, by decide, by decide⟩, by decide, by decide⟩

theorem witness_IntegerRoundTrip :
    8 ≤ 8 ∧ (0xFFFFFFFFFFFFFFFF#64 : U64).toNat < 2 ^ (8 * 8) ∧ (0#64 : U64).toNat < 2 ^ (8 * 0) := by decide

theorem witness_OnlyTheLastEightBytesCount : [2#8, 3#8, 4#8, 5#8, 6#8, 7#8, 8#8, 9#8].length = 8 := by decide

theorem witness_CompareSeesTheFirstDifference : (0#8 : Byte) ∉ [0x54#8] ∧ (0x80#8 : Byte) ≠ 0x41#8 ∧ (0x80#8 : Byte) ≠ 0#8 := by
  decide

theorem witness_AssembledLinesHaveEncodings : assemble "TXI.inv 255, 0x1234" = some (.txi .inv 255 0x1234#64) := by decide

end Sys2Proof.Tests
end

section
/-! PROOFS. The family of 00_scope.md: consistent states never fault (R14, R38), a fair transport completes a frame
(R11, R167), and the trace ends at the level of the select line (R16, R34). -/

namespace Sys2Proof.Machine

-- ---- Which operations fault, and when (R14)

@[simp] theorem raiseErr_ne_fault (c : RespCode) (s : State) (f : Fault) : raiseErr c s ≠ .fault f := nofun

@[simp] theorem startFrame_ne_fault (pol : Polarity) (payload : List Byte) (s : State) (f : Fault) :
    startFrame pol payload s ≠ .fault f := by
  unfold startFrame
  split <;> simp

/-- `TAKE` faults only when it would drain more cells than a buffer has. -/
theorem execTake_eq_fault {s : State} {f : Fault} :
    execTake s = .fault f ↔ s.tx = .idle ∧ s.ready = true ∧ s.par.capacity < s.slotLen.toNat ∧
      f = .indexOutsideBuffer := by
  rw [execTake, hostCommand_eq_fault]
  cases hr : s.ready
  · simp
  · by_cases hl : s.slotLen.toNat ≤ s.par.capacity <;> simp [hl, Nat.not_lt.2, Nat.lt_of_not_le, eq_comm]

/-- A delimiter faults only when it would move more cells than a buffer has. -/
theorem receiveDelim_eq_fault {s : State} {f : Fault} :
    receiveDelim s = .fault f ↔
      dropsFrame s = false ∧ s.par.capacity < s.rxIdx.toNat ∧ f = .indexOutsideBuffer := by
  unfold receiveDelim
  cases hd : dropsFrame s
  · by_cases hi : s.rxIdx.toNat ≤ s.par.capacity <;> simp [hi, Nat.not_lt.2, Nat.lt_of_not_le, eq_comm]
  · simp

/-- `RXB` faults only as the delimiter it delivers does. -/
theorem execRxb_eq_fault {b : Byte} {s : State} {f : Fault} (h : execRxb b s = .fault f) :
    b = delim ∧ s.par.capacity < s.rxIdx.toNat := by
  unfold execRxb at h
  split at h
  · cases h
  · rename_i s' ht
    obtain ⟨-, rest, -, rfl⟩ := takeInterrupt_eq_ok.1 ht
    split at h
    · rename_i hb
      obtain ⟨-, hi, -⟩ := receiveDelim_eq_fault.1 h
      exact ⟨hb, hi⟩
    · cases h

theorem execTxdone_ne_fault (s : State) (f : Fault) : execTxdone s ≠ .fault f := by
  unfold execTxdone
  split <;> simp

/-- The HOST's micro-step faults only when `S1` has no byte to issue. -/
theorem hostMicroStep_eq_fault {s : State} {f : Fault} :
    hostMicroStep s = .fault f ↔
      ∃ seq k pol, s.tx = .busy seq k pol .issue ∧ seq.length ≤ k ∧ f = .indexOutsideFrame := by
  unfold hostMicroStep
  split
  · rename_i seq k pol ht
    cases hb : seq[k]? with
    | none =>
      have hk : seq.length ≤ k := List.getElem?_eq_none_iff.1 hb
      simp [ht, hk, eq_comm]
    | some b =>
      have hk : ¬ seq.length ≤ k := fun hk => by simp [List.getElem?_eq_none hk] at hb
      simp [ht, hk]
  all_goals rename_i ht; simp [ht]

/-- Of the instructions only a `TAKE` of too long a frame and a delimiter after too long a frame fault. -/
theorem exec_eq_fault {i : Instr} {s : State} {f : Fault} (h : exec i s = .fault f) :
    (i = .take ∧ s.par.capacity < s.slotLen.toNat) ∨
      (i = .rxb delim ∧ s.par.capacity < s.rxIdx.toNat) := by
  cases i with
  | cfg | rdst | ackerr => simpa using (hostCommand_eq_fault.1 h).2
  | txb | txs | rdsb =>
    obtain ⟨-, h⟩ := hostCommand_eq_fault.1 h
    split at h <;> simp at h
  | txi =>
    obtain ⟨-, h⟩ := hostCommand_eq_fault.1 h
    split at h
    · split at h <;> simp at h
    · simp at h
  | take =>
    obtain ⟨-, -, hl, -⟩ := execTake_eq_fault.1 h
    exact .inl ⟨rfl, hl⟩
  | rxb b =>
    obtain ⟨rfl, hi⟩ := execRxb_eq_fault h
    exact .inr ⟨rfl, hi⟩
  | txdone => exact absurd h (execTxdone_ne_fault s f)

theorem stepInput_eq_fault {i : Input} {s : State} {f : Fault} (h : stepInput i s = .fault f) :
    hostMicroStep s = .fault f ∨ ∃ j, exec j s = .fault f := by
  cases i with
  | command w p =>
    rw [stepInput] at h
    split at h
    · exact .inr ⟨_, h⟩
    · simpa using (hostCommand_eq_fault.1 h).2
  | hostStep => exact .inl h
  | event w =>
    rw [stepInput] at h
    split at h
    · exact .inr ⟨_, h⟩
    · cases h
  | arrive b => cases h
  | reset => cases h

theorem idleStep_eq_fault {s : State} {f : Fault} (h : idleStep s = .fault f) :
    hostMicroStep s = .fault f ∨ ∃ j, exec j s = .fault f := by
  unfold idleStep at h
  split at h
  · exact .inl h
  · exact .inl h
  · split at h
    · exact .inr ⟨.txdone, h⟩
    · cases h
  · split at h
    · split at h
      · exact .inr ⟨.rxb _, h⟩
      · cases h
    · cases h

/-- A step faults only as the HOST's micro-step or an instruction does. -/
theorem step_eq_fault {s : State} {f : Fault} (h : step s = .fault f) :
    hostMicroStep (taken s) = .fault f ∨ ∃ i, exec i (taken s) = .fault f := by
  by_cases hw : s.par.wf
  · cases hi : s.inputs with
    | nil =>
      rw [step_of_nil hw hi] at h
      rw [taken_of_nil hi]
      exact idleStep_eq_fault h
    | cons i rest =>
      rw [step_of_cons hw hi] at h
      rw [taken_of_cons hi]
      exact stepInput_eq_fault h
  · rw [step_of_not_wf hw] at h
    cases h

-- ---- The invariants of R38 are kept, and exclude every fault

theorem txConsistent_of_idle {s : State} (h : s.tx = .idle) : txConsistent s := by
  simp [txConsistent, h]

/-- The clause about the sequencer, for a frame being sent. -/
theorem txConsistent_iff_of_busy {s : State} {seq : List Byte} {k : Nat} {pol : Polarity} {phase : Phase}
    (h : s.tx = .busy seq k pol phase) :
    txConsistent s ↔ s.en = true ∧ s.role = .master ∧ s.cs = act pol ∧ 1 ≤ seq.length ∧
      seq.getLast? = some delim ∧ (if phase = .release then k = seq.length else k < seq.length) := by
  cases phase <;> simp [txConsistent, h]

/-- Every effect of a step keeps the invariants of R38. -/
theorem Effect.keeps_consistent {s t : State} (hw : s.par.wf) (hc : Consistent s) (h : Effect s t) :
    Consistent t := by
  obtain ⟨hidx, hovf, hlen, hready, htx⟩ := hc
  cases h with
  | stutters | arrives | answers | clears | dropsMore => exact ⟨hidx, hovf, hlen, hready, htx⟩
  | resets => exact ⟨by simp, by simp, by simp, by simp, txConsistent_of_idle rfl⟩
  | configures _ _ _ _ _ _ ht => exact ⟨hidx, hovf, hlen, hready, txConsistent_of_idle ht⟩
  | drains => exact ⟨hidx, hovf, by simp, by simp, htx⟩
  | asserts pol payload _ _ he =>
    obtain ⟨hen, hrole⟩ := (txEnabled_iff s).1 he
    exact ⟨hidx, hovf, hlen, hready, (txConsistent_iff_of_busy rfl).2 (by simp [hen, hrole])⟩
  | issues seq k pol b _ ht _ =>
    have hbusy := (txConsistent_iff_of_busy ht).1 htx
    exact ⟨hidx, hovf, hlen, hready, (txConsistent_iff_of_busy (phase := .wait) rfl).2 hbusy⟩
  | completes seq k pol _ ht =>
    obtain ⟨hen, hrole, hcs, hpos, hlast, hk⟩ := (txConsistent_iff_of_busy ht).1 htx
    have hk : k < seq.length := hk
    refine ⟨hidx, hovf, hlen, hready, (txConsistent_iff_of_busy rfl).2 ⟨hen, hrole, hcs, hpos, hlast, ?_⟩⟩
    by_cases hend : k + 1 = seq.length
    · simp [hend]
    · have hnext : k + 1 < seq.length := by omega
      simp [hend, hnext]
  | releases => exact ⟨hidx, hovf, hlen, hready, txConsistent_of_idle rfl⟩
  | stores b rest _ _ _ _ hroom =>
    have hcap : s.par.capacity ≤ 255 := hw.2
    have hnext : (s.rxIdx + 1#8).toNat ≤ s.par.capacity := by
      simp only [BitVec.toNat_add, BitVec.toNat_ofNat]
      omega
    exact ⟨hnext, fun ho => absurd (hovf ho) hroom.ne, hlen, hready, htx⟩
  | marks b rest _ _ _ _ hfull => exact ⟨hidx, fun _ => hidx.antisymm hfull, hlen, hready, htx⟩
  | discards => exact ⟨by simp, by simp, hlen, hready, htx⟩
  | delivers => exact ⟨by simp, by simp, hidx, by simp, htx⟩

theorem step_keeps_consistent {s t : State} (hc : Consistent s) (h : step s = .next t) : Consistent t := by
  obtain ⟨hw, he⟩ := step_effect h
  exact he.keeps_consistent hw hc

theorem exec_ne_fault_of_consistent {s : State} (hc : Consistent s) (i : Instr) (f : Fault) :
    exec i (taken s) ≠ .fault f := fun h => by
  rcases exec_eq_fault h with ⟨-, hl⟩ | ⟨-, hi⟩
  · exact absurd hc.len_le (Nat.not_le.2 hl)
  · exact absurd hc.idx_le (Nat.not_le.2 hi)

theorem hostMicroStep_ne_fault_of_consistent {s : State} (hc : Consistent s) (f : Fault) :
    hostMicroStep (taken s) ≠ .fault f := fun h => by
  obtain ⟨seq, k, pol, ht, hk, -⟩ := hostMicroStep_eq_fault.1 h
  obtain ⟨-, -, -, -, -, hlt⟩ := (txConsistent_iff_of_busy ht).1 hc.tx_ok
  exact absurd hk (Nat.not_le.2 hlt)

theorem step_ne_fault_of_consistent {s : State} (hc : Consistent s) (f : Fault) : step s ≠ .fault f := fun h => by
  rcases step_eq_fault h with h | ⟨i, h⟩
  · exact hostMicroStep_ne_fault_of_consistent hc f h
  · exact exec_ne_fault_of_consistent hc i f h

/-- A predicate that every step keeps, and under which no step faults, makes every run safe. -/
theorem safeRun_of_invariant {P : State → Prop} (hkeep : ∀ s t, P s → step s = .next t → P t)
    (hsafe : ∀ s f, P s → step s ≠ .fault f) {s : State} (hs : P s) : SafeRun s := by
  intro k f
  induction k generalizing s with
  | zero => simp [runSteps]
  | succ k ih =>
    rw [runSteps]
    cases h : step s with
    | next t => exact ih (hkeep s t hs h)
    | fault r => exact absurd h (hsafe s r hs)
    | refused r => simp

/-- Settles O46: the invariants of R38 are kept by every step and exclude every fault. -/
theorem consistentStatesNeverFault : Obligations.ConsistentStatesNeverFault := fun _ hs =>
  safeRun_of_invariant (fun _ _ => step_keeps_consistent) (fun _ f hc => step_ne_fault_of_consistent hc f) hs

-- ---- A fair transport completes a frame (R11, R142 to R145)

/-- The state after the bytes still to send are on the wire, the frame is released and answered: `S3`'s effect
after all the `S1`s and `TXDONE`s. -/
def frameSent (pol : Polarity) (bytes : List Byte) (s : State) : State :=
  respond .ok 0#32
    { driveCs (inact pol) { s with trace := s.trace ++ bytes.map .byte } with tx := .idle }

/-- With nothing scheduled the HOST issues the next byte (`S1`). -/
theorem step_of_issue {s : State} {seq : List Byte} {k : Nat} {pol : Polarity} {b : Byte} (hw : s.par.wf)
    (hi : s.inputs = []) (ht : s.tx = .busy seq k pol .issue) (hb : seq[k]? = some b) :
    step s = .next (emit (.byte b) { s with tx := .busy seq k pol .wait }) := by
  simp [step_of_nil hw hi, idleStep, hostMicroStep, ht, hb]

/-- With nothing scheduled a fair TRANSPORT completes the byte being sent (`TXDONE`). -/
theorem step_of_fair_wait {s : State} {seq : List Byte} {k : Nat} {pol : Polarity} (hw : s.par.wf)
    (hf : s.par.transportFair = true) (hi : s.inputs = []) (ht : s.tx = .busy seq k pol .wait) :
    step s = .next
      { s with tx := .busy seq (k + 1) pol (if k + 1 = seq.length then .release else .issue) } := by
  simp [step_of_nil hw hi, idleStep, execTxdone, ht, hf]

/-- With nothing scheduled the HOST releases a frame whose bytes are all sent (`S3`). -/
theorem step_of_release {s : State} {seq : List Byte} {k : Nat} {pol : Polarity} (hw : s.par.wf)
    (hi : s.inputs = []) (ht : s.tx = .busy seq k pol .release) : step s = .next (frameSent pol [] s) := by
  simp [step_of_nil hw hi, idleStep, hostMicroStep, ht, frameSent]

theorem runSteps_succ_of_next {s t : State} (h : step s = .next t) (n : Nat) :
    runSteps (n + 1) s = runSteps n t := by
  simp [runSteps, h]

/-- Two steps put the next byte on the wire and complete it. -/
theorem runSteps_sends_byte {s : State} {seq : List Byte} {k : Nat} {pol : Polarity} {b : Byte} (hw : s.par.wf)
    (hf : s.par.transportFair = true) (hi : s.inputs = []) (ht : s.tx = .busy seq k pol .issue)
    (hb : seq[k]? = some b) (n : Nat) :
    runSteps (n + 2) s = runSteps n
      { emit (.byte b) s with
        tx := .busy seq (k + 1) pol (if k + 1 = seq.length then .release else .issue) } :=
  (runSteps_succ_of_next (step_of_issue hw hi ht hb) (n + 1)).trans
    (runSteps_succ_of_next (step_of_fair_wait (s := emit _ { s with tx := _ }) hw hf hi rfl) n)

/-- Between two bytes of a frame, with the bytes `sent` on the wire and `rest` still to come, two steps a byte of
`rest` and one more send `rest`, release the frame and answer it. -/
theorem runSteps_sends_rest {s : State} {sent rest : List Byte} {pol : Polarity} (hw : s.par.wf)
    (hf : s.par.transportFair = true) (hi : s.inputs = [])
    (ht : s.tx = .busy (sent ++ rest) sent.length pol (if rest = [] then .release else .issue)) :
    runSteps (2 * rest.length + 1) s = .next (frameSent pol rest s) := by
  induction rest generalizing s sent with
  | nil => exact runSteps_succ_of_next (step_of_release hw hi ht) 0
  | cons b rest ih =>
    calc runSteps (2 * rest.length + 1 + 2) s
      _ = runSteps (2 * rest.length + 1) _ := runSteps_sends_byte hw hf hi ht (b := b) (by simp) _
      _ = .next (frameSent pol rest _) := ih (sent := sent ++ [b]) hw hf hi (by simp)
      _ = .next (frameSent pol (b :: rest) s) := by simp [frameSent, emit, driveCs, respond]

/-- Settles O31: the frame is sent from its first byte on, in `2 * seq.length + 1` steps. -/
theorem fairTransportCompletesAFrame : Obligations.FairTransportCompletesAFrame := by
  intro s seq pol hw hf hi hseq ht
  have hrun := runSteps_sends_rest (sent := []) (rest := seq) hw hf hi (by simpa [hseq] using ht)
  exact ⟨frameSent pol seq s, hrun, rfl, rfl, rfl, rfl⟩

-- ---- The trace ends at the level of the select line (R16, R34)

theorem lastLevel_append (l m : List WireEvent) : lastLevel (l ++ m) = (lastLevel m).or (lastLevel l) := by
  induction l with
  | nil => simp [lastLevel]
  | cons e l ih =>
    cases e with
    | cs level => simp [lastLevel, ih]
    | byte b => simp [lastLevel, ih]

/-- What a step does to the line and the trace together: the line keeps its level while the trace keeps its events
or gains a byte, or the line is driven and the trace gains the drive. -/
theorem Effect.cs_trace {s t : State} (h : Effect s t) :
    (t.cs = s.cs ∧ (t.trace = s.trace ∨ ∃ b, t.trace = s.trace ++ [.byte b])) ∨
      t.trace = s.trace ++ [.cs t.cs] := by
  cases h with
  | resets | asserts | releases => exact .inr rfl
  | issues _ _ _ b => exact .inl ⟨rfl, .inr ⟨b, rfl⟩⟩
  | _ => exact .inl ⟨rfl, .inl rfl⟩

/-- Settles O47: a drive is recorded as it is made, and a byte in the trace is no drive. -/
theorem traceEndsAtTheLevelOfTheLine : Obligations.TraceEndsAtTheLevelOfTheLine := by
  intro s t hs h
  rcases (step_effect h).2.cs_trace with ⟨hcs, htr | ⟨b, htr⟩⟩ | htr
  · rw [htr, hcs, hs]
  · rw [htr, hcs, lastLevel_append, hs]
    rfl
  · rw [htr, lastLevel_append]
    rfl

end Sys2Proof.Machine
end

section
/-! PROOFS. The family of 10_state.md: the invariants of R38 and the reset table (R39), the writers of each state
element (R40), and the cells of `Stg` and `Slot` that no rule reads (R25, R28, U3). -/

namespace Sys2Proof.Machine

/-- Settles O42: every effect a step can have keeps the invariants. -/
theorem consistencyIsKept : Obligations.ConsistencyIsKept := fun _ _ => step_keeps_consistent

-- ---- Stale cells are never observed (R25, R28, U3)
-- Each operation is followed by itself on the state with other buffers. Its test and the fields it writes are the
-- same in both, so only the four that read or write a cell need an argument: `RXB` (a payload byte stored, a frame
-- moved), `TAKE` (the drain), and a reset, which leaves no cell live.

/-- `s` with other contents of `Stg` and `Slot`. -/
def withBuffers (g l : Memory) (s : State) : State := { s with stg := g, slot := l }

/-- Whatever next state `r` answers, `r'` answers one that differs from it in stale cells alone. -/
def FollowsButStale (r r' : Result) : Prop := ∀ s', r = .next s' → ∃ t', r' = .next t' ∧ sameButStale s' t'

theorem FollowsButStale.next {s t : State} (h : sameButStale s t) : FollowsButStale (.next s) (.next t) := by
  rintro _ ⟨⟩
  exact ⟨t, rfl, h⟩

theorem FollowsButStale.fault (f : Fault) (r : Result) : FollowsButStale (.fault f) r := by
  rintro _ ⟨⟩

theorem FollowsButStale.refused (e : Refusal) (r : Result) : FollowsButStale (.refused e) r := by
  rintro _ ⟨⟩

/-- Related branches of one test are related results, for `sameButStale` and `FollowsButStale` alike. -/
theorem rel_ite {α : Type} {R : α → α → Prop} {p : Prop} [Decidable p] {a a' b b' : α} (ha : R a a')
    (hb : R b b') : R (if p then a else b) (if p then a' else b') := by
  split
  · exact ha
  · exact hb

theorem FollowsButStale.hostCommand {s : State} {g l : Memory} {r r' : Result} (h : FollowsButStale r r') :
    FollowsButStale (hostCommand s r) (hostCommand (withBuffers g l s) r') :=
  rel_ite h (.refused _ _)

theorem sameButStale_withBuffers {s : State} {g l : Memory} :
    sameButStale s (withBuffers g l s) ↔
      (∀ i, i < s.rxIdx.toNat → g.read i = s.stg.read i) ∧
        ∀ i, i < s.slotLen.toNat → l.read i = s.slot.read i :=
  and_iff_right rfl

theorem sameButStale.respond {s t : State} (h : sameButStale s t) (c : RespCode) (d : Word32) :
    sameButStale (respond c d s) (respond c d t) :=
  ⟨congrArg (Machine.respond c d) h.1, h.2⟩

theorem sameButStale.raiseErr {s t : State} (h : sameButStale s t) (c : RespCode) :
    FollowsButStale (raiseErr c s) (raiseErr c t) :=
  .next (h.respond c 0#32)

section
variable {s : State} {g l : Memory} (h : sameButStale s (withBuffers g l s))
include h

theorem startFrame_followsButStale (pol : Polarity) (payload : List Byte) :
    FollowsButStale (startFrame pol payload s) (startFrame pol payload (withBuffers g l s)) :=
  rel_ite (h.raiseErr _) (.next ⟨rfl, h.2⟩)

/-- A drain reads the live cells of `Slot` alone, and leaves none. -/
theorem drainSlot_sameButStale : sameButStale (drainSlot s) (drainSlot (withBuffers g l s)) := by
  obtain ⟨hstg, hslot⟩ := sameButStale_withBuffers.1 h
  refine ⟨?_, hstg, fun i hi => absurd hi (Nat.not_lt_zero i)⟩
  have hcopy : s.stb.copy l s.slotLen.toNat = s.stb.copy s.slot s.slotLen.toNat := Memory.copy_congr _ hslot
  simp [drainSlot, withBuffers, hcopy]

/-- A byte is stored at the end of the live cells of `Stg`. -/
theorem receivePayload_sameButStale (hs : s.stg.wf) (hg : g.wf) (b : Byte) :
    sameButStale (receivePayload b s) (receivePayload b (withBuffers g l s)) := by
  obtain ⟨hstg, hslot⟩ := sameButStale_withBuffers.1 h
  have hstored : ∀ i, i < (s.rxIdx + 1#8).toNat →
      (g.write s.rxIdx.toNat b).read i = (s.stg.write s.rxIdx.toNat b).read i := fun i hi => by
    rw [Memory.read_write hg, Memory.read_write hs]
    split
    · rfl
    · exact hstg i (by bv_omega)
  exact rel_ite ⟨rfl, hstored, hslot⟩ (rel_ite h ⟨rfl, h.2⟩)

/-- A delimiter starts `Stg` again, and fills the live cells of `Slot` from the live ones of `Stg`. -/
theorem receiveDelim_followsButStale (hs : s.slot.wf) (hl : l.wf) :
    FollowsButStale (receiveDelim s) (receiveDelim (withBuffers g l s)) := by
  obtain ⟨hstg, hslot⟩ := sameButStale_withBuffers.1 h
  have hempty : ∀ i, i < (0#8).toNat → g.read i = s.stg.read i := fun i hi => absurd hi (Nat.not_lt_zero i)
  have hmoved : ∀ i, i < s.rxIdx.toNat →
      (l.copy g s.rxIdx.toNat).read i = (s.slot.copy s.stg s.rxIdx.toNat).read i := fun i hi => by
    rw [Memory.read_copy hl, Memory.read_copy hs, if_pos hi, if_pos hi, hstg i hi]
  exact rel_ite (.next ⟨rfl, hempty, hslot⟩) (rel_ite (.next ⟨rfl, hempty, hmoved⟩) (.fault _ _))

theorem execRxb_followsButStale (hs : BuffersOk s) (ht : BuffersOk (withBuffers g l s)) (b : Byte) :
    FollowsButStale (execRxb b s) (execRxb b (withBuffers g l s)) := by
  intro s' hnext
  obtain ⟨he, rest, hr, ⟨hb, rfl⟩ | ⟨hb, hd⟩⟩ := execRxb_eq_next.1 hnext
  · exact ⟨_, execRxb_eq_next.2 ⟨he, rest, hr, .inl ⟨hb, rfl⟩⟩,
      receivePayload_sameButStale (s := { s with rxIn := rest }) ⟨rfl, h.2⟩ hs.stg_wf ht.stg_wf b⟩
  · obtain ⟨t', hd', hst⟩ := receiveDelim_followsButStale (s := { s with rxIn := rest }) (g := g)
      ⟨rfl, h.2⟩ hs.slot_wf ht.slot_wf s' hd
    exact ⟨t', execRxb_eq_next.2 ⟨he, rest, hr, .inr ⟨hb, hd'⟩⟩, hst⟩

theorem execTxdone_followsButStale : FollowsButStale (execTxdone s) (execTxdone (withBuffers g l s)) := by
  intro s' hnext
  obtain ⟨seq, k, pol, htx, rfl⟩ := execTxdone_eq_next.1 hnext
  exact ⟨_, execTxdone_eq_next.2 ⟨seq, k, pol, htx, rfl⟩, rfl, h.2⟩

theorem hostMicroStep_followsButStale :
    FollowsButStale (hostMicroStep s) (hostMicroStep (withBuffers g l s)) := by
  intro s' hnext
  rcases hostMicroStep_eq_next.1 hnext with
    ⟨seq, k, pol, b, htx, hb, rfl⟩ | ⟨seq, k, pol, htx, rfl⟩ | ⟨seq, k, pol, htx, rfl⟩ | ⟨htx, rfl⟩
  · exact ⟨_, hostMicroStep_eq_next.2 (.inl ⟨seq, k, pol, b, htx, hb, rfl⟩), rfl, h.2⟩
  · exact ⟨_, hostMicroStep_eq_next.2 (.inr (.inl ⟨seq, k, pol, htx, rfl⟩)), rfl, h.2⟩
  · exact ⟨_, hostMicroStep_eq_next.2 (.inr (.inr (.inl ⟨seq, k, pol, htx, rfl⟩))), h⟩
  · exact ⟨_, hostMicroStep_eq_next.2 (.inr (.inr (.inr ⟨htx, rfl⟩))), h⟩

theorem exec_followsButStale (hs : BuffersOk s) (ht : BuffersOk (withBuffers g l s)) (i : Instr) :
    FollowsButStale (exec i s) (exec i (withBuffers g l s)) := by
  have hframe := startFrame_followsButStale h
  have herr := h.raiseErr
  cases i with
  | cfg | ackerr | rdst => exact .hostCommand (.next ⟨rfl, h.2⟩)
  | txb | txs => exact .hostCommand (rel_ite (hframe _ _) (herr _))
  | txi => exact .hostCommand (rel_ite (rel_ite (herr _) (hframe _ _)) (herr _))
  | take =>
    have hdrain := (drainSlot_sameButStale h).respond .ok (takeData s.slotLen)
    exact .hostCommand (rel_ite (rel_ite (.next hdrain) (.fault _ _)) (.next ⟨rfl, h.2⟩))
  | rdsb => exact .hostCommand (rel_ite (herr _) (.next ⟨rfl, h.2⟩))
  | rxb b => exact execRxb_followsButStale h hs ht b
  | txdone => exact execTxdone_followsButStale h

theorem stepInput_followsButStale (hs : BuffersOk s) (ht : BuffersOk (withBuffers g l s)) (i : Input) :
    FollowsButStale (stepInput i s) (stepInput i (withBuffers g l s)) := by
  cases i with
  | command w p =>
    simp only [stepInput]
    cases decodeCommand w p with
    | ok i => exact exec_followsButStale h hs ht i
    | error r => exact .hostCommand (h.raiseErr _)
  | hostStep => exact hostMicroStep_followsButStale h
  | event w =>
    simp only [stepInput]
    cases decodeEvent w with
    | ok i => exact exec_followsButStale h hs ht i
    | error r => exact .refused _ _
  | arrive b => exact .next (rel_ite ⟨rfl, h.2⟩ h)
  | reset => exact .next ⟨rfl, fun _ _ => rfl, fun _ _ => rfl⟩

theorem idleStep_followsButStale (hs : BuffersOk s) (ht : BuffersOk (withBuffers g l s)) :
    FollowsButStale (idleStep s) (idleStep (withBuffers g l s)) := by
  have htx : (withBuffers g l s).tx = s.tx := rfl
  have hrx : (withBuffers g l s).rxIn = s.rxIn := rfl
  unfold idleStep
  rw [htx, hrx]
  split
  · exact hostMicroStep_followsButStale h
  · exact hostMicroStep_followsButStale h
  · exact rel_ite (execTxdone_followsButStale h) (.next h)
  · split
    · exact rel_ite (execRxb_followsButStale h hs ht _) (.next h)
    · exact .next h

theorem step_followsButStale (hs : BuffersOk s) (ht : BuffersOk (withBuffers g l s)) :
    FollowsButStale (step s) (step (withBuffers g l s)) := by
  refine rel_ite ?_ (.refused _ _)
  have hin : (withBuffers g l s).inputs = s.inputs := rfl
  rw [hin]
  cases s.inputs with
  | nil => exact idleStep_followsButStale h hs ht
  | cons i rest =>
    exact stepInput_followsButStale (s := { s with inputs := rest }) ⟨rfl, h.2⟩
      { hs with } { ht with } i

end

/-- Settles O51: no rule reads a stale cell. -/
theorem staleCellsAreNeverObserved : Obligations.StaleCellsAreNeverObserved := by
  intro s t s' _ hs ht hst hnext
  obtain ⟨g, l, rfl⟩ : ∃ g l, t = withBuffers g l s := ⟨_, _, hst.1⟩
  exact step_followsButStale hst hs ht s' hnext

-- ---- The reset table (R39, R250)

theorem resetWith_atResetValues (p : Params) : atResetValues (State.resetWith p) := by
  simp [atResetValues, State.resetWith]

theorem powerOnReset_atResetValues (s : State) : atResetValues (powerOnReset s) := by
  simp [atResetValues]

theorem step_of_reset {s : State} {rest : List Input} (hw : s.par.wf) (hi : s.inputs = .reset :: rest) :
    step s = .next (powerOnReset { s with inputs := rest }) := step_of_cons hw hi

/-- Settles O39: the reset state is written out as the table has it. -/
theorem resetStateIsTheTable : Obligations.ResetStateIsTheTable :=
  ⟨fun p => ⟨resetWith_atResetValues p, rfl, rfl⟩, rfl, rfl, rfl, rfl, rfl⟩

/-- Settles O40: a reset looks at nothing of the running block but its parameters. -/
theorem resetAbandonsEverything : Obligations.ResetAbandonsEverything := fun _ _ hw hi =>
  ⟨_, step_of_reset hw hi, powerOnReset_atResetValues _, rfl, rfl, rfl, rfl⟩

/-- Settles O43: the cursor and the slot's length are 0, and the sequencer is idle. -/
theorem resetIsConsistent : Obligations.ResetIsConsistent := fun _ =>
  ⟨Nat.zero_le _, nofun, Nat.zero_le _, fun _ => rfl, txConsistent_of_idle rfl⟩

-- ---- The writers of each element (R40)

theorem toNat_le_toNat_satInc8 (x : BitVec 8) : x.toNat ≤ (satInc8 x).toNat := by
  unfold satInc8
  split <;> bv_omega

namespace Effect
variable {s t : State} (h : Effect s t) (hreset : ¬ resetsNext s)
include h hreset

/-- `Stg`, `RxIdx` and `RxOvf` are the FRAMER's (R25 to R27). -/
theorem staging_writer : framerMovesNext s ∨ (t.stg = s.stg ∧ t.rxIdx = s.rxIdx ∧ t.rxOvf = s.rxOvf) := by
  cases h with
  | resets hr => exact absurd hr hreset
  | stores b _ hn | marks b _ hn => exact .inl ⟨b, hn⟩
  | discards _ hn | delivers _ hn => exact .inl ⟨delim, hn⟩
  | _ => exact .inr ⟨rfl, rfl, rfl⟩

/-- `Slot`, `SlotLen` and `Ready` are written at a delimiter, which sets `Ready`, and by a `TAKE`, which clears it
(R28 to R30). -/
theorem slot_writer : (nextInstr s = some (.rxb delim) ∧ t.ready = true) ∨
    (nextInstr s = some .take ∧ t.ready = false) ∨
    (t.slot = s.slot ∧ t.slotLen = s.slotLen ∧ t.ready = s.ready) := by
  cases h with
  | resets hr => exact absurd hr hreset
  | drains _ hn => exact .inr (.inl ⟨hn, rfl⟩)
  | delivers _ hn => exact .inl ⟨hn, rfl⟩
  | _ => exact .inr (.inr ⟨rfl, rfl, rfl⟩)

/-- `Stb` is written by a `TAKE` (R31). -/
theorem stb_writer : nextInstr s = some .take ∨ t.stb = s.stb := by
  cases h with
  | resets hr => exact absurd hr hreset
  | drains _ hn => exact .inl hn
  | _ => exact .inr rfl

/-- The configuration fields are written by a `CFG` (R22 to R24). -/
theorem config_writer : (∃ en x2 div mode bitord role, nextInstr s = some (.cfg en x2 div mode bitord role)) ∨
    (t.en = s.en ∧ t.role = s.role ∧ t.bitord = s.bitord ∧ t.mode = s.mode ∧ t.div = s.div ∧ t.x2 = s.x2) := by
  cases h with
  | resets hr => exact absurd hr hreset
  | configures en x2 div mode bitord role _ hn => exact .inl ⟨en, x2, div, mode, bitord, role, hn⟩
  | _ => exact .inr ⟨rfl, rfl, rfl, rfl, rfl, rfl⟩

/-- `OvrCnt` is counted up at a delimiter and cleared by an `ACKERR` that names it (R32). -/
theorem ovrCnt_writer : (nextInstr s = some (.rxb delim) ∧ s.ovrCnt.toNat ≤ t.ovrCnt.toNat) ∨
    ((∃ ovsz, nextInstr s = some (.ackerr true ovsz)) ∧ t.ovrCnt = 0#8) ∨ t.ovrCnt = s.ovrCnt := by
  cases h with
  | resets hr => exact absurd hr hreset
  | clears ovr ovsz _ hn =>
    cases ovr with
    | false => exact .inr (.inr rfl)
    | true => exact .inr (.inl ⟨⟨ovsz, hn⟩, rfl⟩)
  | delivers _ hn =>
    refine .inl ⟨hn, ?_⟩
    cases hready : s.ready <;> simp [hready, toNat_le_toNat_satInc8]
  | _ => exact .inr (.inr rfl)

/-- `OvszCnt` is counted up by the FRAMER and cleared by an `ACKERR` that names it (R33). -/
theorem ovszCnt_writer : (framerMovesNext s ∧ s.ovszCnt.toNat ≤ t.ovszCnt.toNat) ∨
    ((∃ ovr, nextInstr s = some (.ackerr ovr true)) ∧ t.ovszCnt = 0#8) ∨ t.ovszCnt = s.ovszCnt := by
  cases h with
  | resets hr => exact absurd hr hreset
  | clears ovr ovsz _ hn =>
    cases ovsz with
    | false => exact .inr (.inr rfl)
    | true => exact .inr (.inl ⟨⟨ovr, hn⟩, rfl⟩)
  | marks b _ hn => exact .inl ⟨⟨b, hn⟩, toNat_le_toNat_satInc8 _⟩
  | _ => exact .inr (.inr rfl)

/-- `CS` is driven at `S0` and at `S3` (R34). -/
theorem cs_writer : transmitIssuedNext s ∨ (hostMovesNext s ∧ ∃ seq k pol, s.tx = .busy seq k pol .release) ∨
    t.cs = s.cs := by
  cases h with
  | resets hr => exact absurd hr hreset
  | asserts _ _ _ hn => exact .inl hn
  | releases seq k pol hh ht => exact .inr (.inl ⟨hh, seq, k, pol, ht⟩)
  | _ => exact .inr (.inr rfl)

/-- `TxState` is moved by a transmit command, by `TXDONE` and by the HOST's micro-steps (R35). -/
theorem tx_writer : (transmitIssuedNext s ∨ nextInstr s = some .txdone ∨ hostMovesNext s) ∨ t.tx = s.tx := by
  cases h with
  | resets hr => exact absurd hr hreset
  | asserts _ _ _ hn => exact .inl (.inl hn)
  | completes _ _ _ hn => exact .inl (.inr (.inl hn))
  | issues _ _ _ _ hh | releases _ _ _ hh => exact .inl (.inr (.inr hh))
  | _ => exact .inr rfl

end Effect

/-- Settles O49: each clause is what the one lemma about the element's writers leaves. -/
theorem eachElementHasItsWriters : Obligations.EachElementHasItsWriters := by
  refine fun s => ⟨fun hr hw => ?_, fun t h hr => ?_⟩
  · obtain ⟨rest, hi⟩ := List.head?_eq_some_iff.1 hr
    exact ⟨_, step_of_reset hw hi, powerOnReset_atResetValues _⟩
  have he := (step_effect h).2
  refine ⟨?_, ?_, ?_, ?_, ?_, ?_, ?_, ?_, ?_, ?_, ?_, ?_⟩
  · grind [he.staging_writer hr]
  · grind [he.slot_writer hr, delim]
  · grind [he.slot_writer hr]
  · grind [he.slot_writer hr, delim]
  · exact (he.stb_writer hr).resolve_right
  · grind [he.config_writer hr]
  · grind [he.ovrCnt_writer hr, delim]
  · grind [he.ovszCnt_writer hr]
  · grind [he.ovrCnt_writer hr]
  · grind [he.ovszCnt_writer hr]
  · grind [he.cs_writer hr]
  · exact (he.tx_writer hr).resolve_right

end Sys2Proof.Machine
end

section
/-! PROOFS. The family of 20_memory.md: the three buffers stay in canonical form inside the capacity (R50), and a
step runs the instruction that the word on a port decodes to (R58, R70, R82). -/

namespace Sys2Proof.Machine

-- ---- The buffers' form (R25, R28, R31, R50)

theorem Memory.wf_nil : Memory.wf [] := ⟨.nil, nofun⟩

theorem Memory.inside_nil (L : Nat) : Memory.inside L [] := nofun

theorem buffersOk_of_empty {s : State} (hstg : s.stg = []) (hslot : s.slot = []) (hstb : s.stb = []) :
    BuffersOk s where
  stg_wf := hstg ▸ Memory.wf_nil
  slot_wf := hslot ▸ Memory.wf_nil
  stb_wf := hstb ▸ Memory.wf_nil
  stg_inside := hstg ▸ Memory.inside_nil _
  slot_inside := hslot ▸ Memory.inside_nil _
  stb_inside := hstb ▸ Memory.inside_nil _

/-- Beside a reset, three effects write a cell: a stored byte (`Stg`), a drain (`Slot`, `Stb`), a delivered frame (`Slot`).
Each writes below the bound under which it happens; the padding and clearing of a drain list no cell at all. -/
theorem Effect.keeps_buffersOk {s t : State} (hs : BuffersOk s) (h : Effect s t) : BuffersOk t := by
  cases h with
  | resets => exact buffersOk_of_empty rfl rfl rfl
  | stores b _ _ _ _ _ hi =>
    exact { hs with
      stg_wf := Memory.wf_write hs.stg_wf _ b
      stg_inside := Memory.inside_write hs.stg_inside hi b }
  | drains _ _ _ hl =>
    exact { hs with
      slot_wf := Memory.wf_zeroFrom hs.slot_wf _ _
      slot_inside := Memory.inside_zeroFrom hs.slot_inside _ _
      stb_wf := Memory.wf_zeroFrom (Memory.wf_copy hs.stb_wf _ _) _ _
      stb_inside := Memory.inside_zeroFrom (Memory.inside_copy hs.stb_inside _ hl) _ _ }
  | delivers _ _ _ _ _ hi =>
    exact { hs with
      slot_wf := Memory.wf_copy hs.slot_wf _ _
      slot_inside := Memory.inside_copy hs.slot_inside _ hi }
  | _ => exact { hs with }

/-- Settles O44: every effect a step can have keeps the buffers' form. -/
theorem buffersStayCanonical : Obligations.BuffersStayCanonical := fun _ _ hs h =>
  (step_effect h).2.keeps_buffersOk hs

/-- Settles O45: every buffer is empty after reset. -/
theorem resetBuffersAreCanonical : Obligations.ResetBuffersAreCanonical := fun _ =>
  buffersOk_of_empty rfl rfl rfl

-- ---- A step runs the decoded instruction (R58, R70, R82)

theorem stepInput_of_decodeCommand {w : Word16} {p : Payload} {i : Instr} (h : decodeCommand w p = .ok i)
    (s : State) : stepInput (.command w p) s = exec i s := by
  simp [stepInput, h]

theorem stepInput_of_decodeEvent {w : Word16} {i : Instr} (h : decodeEvent w = .ok i) (s : State) :
    stepInput (.event w) s = exec i s := by
  simp [stepInput, h]

/-- Settles O41: the step takes the scheduled word, and the port's decoder has it run `i`. -/
theorem stepRunsTheDecodedInstruction : Obligations.StepRunsTheDecodedInstruction := fun _ _ _ hw =>
  ⟨fun _ _ hi hd => (step_of_cons hw hi).trans (stepInput_of_decodeCommand hd _),
    fun _ hi hd => (step_of_cons hw hi).trans (stepInput_of_decodeEvent hd _)⟩

end Sys2Proof.Machine
end

section
/-! PROOFS. The family of 30_encoding.md: each port's decoder and the encoder are inverse to each other (R70 to R79,
R82, R83), the legal words of each opcode (R84) and the illegal ones (R76), the operands and effects of `CFG` and
`ACKERR` (R77, R78), the observations (R37, R80), and the assembler (R85 to R87). -/

namespace Sys2Proof

-- ---- Decoding and encoding are inverse on each port (R70 to R79, R82, R83)

/-- The payload operand, where the instruction has one, is the one the port carries (R72). -/
def Instr.readsPayload (p : Payload) : Instr → Prop
  | .txs _ text => text = p.text
  | .txi _ _ value => value = p.value
  | _ => True

theorem encode_port (i : Instr) : (encode i).port = i.port := by cases i <;> rfl

theorem readsPayload_encode (i : Instr) : i.readsPayload (encode i).payload := by
  cases i with
  | txs | txi => rfl
  | _ => trivial

theorem wf_of_transport {i : Instr} (h : i.port = .transport) : i.wf = true := by
  cases i with
  | rxb | txdone => rfl
  | _ => cases h

theorem readsPayload_of_transport {i : Instr} (h : i.port = .transport) (p : Payload) : i.readsPayload p := by
  cases i with
  | rxb | txdone => trivial
  | _ => cases h

/-- An `ACKERR` immediate whose unused bits are 0 is its fields put together (R78). -/
theorem ackerrImm_of_fields {imm : Byte} (h : imm.extractLsb' 2 6 = 0#6) :
    ackerrImm (imm.getLsbD 0) (imm.getLsbD 1) = imm := by
  revert imm; decide

@[simp] theorem ackerrImm_unusedBits (ovr ovsz : Bool) : (ackerrImm ovr ovsz).extractLsb' 2 6 = 0#6 := by
  cases ovr <;> cases ovsz <;> rfl

@[simp] theorem ackerrImm_clrOvr (ovr ovsz : Bool) : (ackerrImm ovr ovsz)[0] = ovr := by
  cases ovr <;> cases ovsz <;> rfl

@[simp] theorem ackerrImm_clrOvsz (ovr ovsz : Bool) : (ackerrImm ovr ovsz)[1] = ovsz := by
  cases ovr <;> cases ovsz <;> rfl

/-- The `CFG` with a given immediate is encoded with that immediate (R77). -/
theorem encode_cfgOfImm_word (imm : Byte) : (encode (cfgOfImm imm)).word = commandWord 1#4 0#1 imm :=
  congrArg (commandWord 1#4 0#1) (cfgImm_of_fields imm)

/-- What the host command port's decoder reads from a word has that word as its encoding. -/
theorem encode_of_decodeCommand {w : Word16} {p : Payload} {i : Instr} (h : decodeCommand w p = .ok i) :
    i.wf = true ∧ i.port = .host ∧ i.readsPayload p ∧ w = (encode i).word := by
  obtain ⟨hrsv, hrow⟩ := decodeCommand_eq_ok.1 h
  obtain ⟨op, pol, imm, rfl⟩ : ∃ op pol imm, w = commandWord op (BitVec.ofBool pol) imm :=
    ⟨_, _, _, (commandWord_of_fields hrsv).symm⟩
  rw [opField_commandWord, polField_commandWord, immField_commandWord, BitVec.getElem_ofBool_zero] at hrow
  rcases hrow with ⟨rfl, rfl, rfl⟩ | ⟨rfl, rfl⟩ | ⟨rfl, rfl, rfl⟩ | ⟨rfl, rfl⟩ | ⟨rfl, rfl, rfl, rfl⟩ |
    ⟨rfl, rfl, rfl⟩ | ⟨rfl, rfl, rfl, rfl⟩ | ⟨rfl, rfl, hclr, rfl⟩
  · exact ⟨rfl, rfl, trivial, (encode_cfgOfImm_word imm).symm⟩
  · exact ⟨rfl, rfl, trivial, by rw [encode, polarityBit_of]⟩
  · exact ⟨rfl, rfl, rfl, by rw [encode, polarityBit_of]⟩
  · exact ⟨decide_eq_true imm.isLt, rfl, rfl,
      by rw [encode, polarityBit_of, BitVec.ofNat_toNat, BitVec.setWidth_eq]⟩
  · exact ⟨rfl, rfl, trivial, rfl⟩
  · exact ⟨decide_eq_true imm.isLt, rfl, trivial, by rw [encode, BitVec.ofNat_toNat, BitVec.setWidth_eq]; rfl⟩
  · exact ⟨rfl, rfl, trivial, rfl⟩
  · exact ⟨rfl, rfl, trivial, by rw [encode, ackerrImm_of_fields hclr]; rfl⟩

/-- The host command port's decoder reads a well-formed command from its encoding. -/
theorem decodeCommand_encode {p : Payload} {i : Instr} (hwf : i.wf = true) (hport : i.port = .host)
    (hp : i.readsPayload p) : decodeCommand (encode i).word p = .ok i := by
  cases i with
  | cfg | txb | take | rdst | ackerr => simp [decodeCommand_eq_ok, encode, cfgOfImm_cfgImm]
  | txs => simpa [decodeCommand_eq_ok, encode, Instr.readsPayload] using hp
  | txi pol n value =>
    have hn : n < 256 := of_decide_eq_true hwf
    have hvalue : value = p.value := hp
    simp [decodeCommand_eq_ok, encode, Nat.mod_eq_of_lt hn, hvalue]
  | rdsb n =>
    have hn : n < 256 := of_decide_eq_true hwf
    simp [decodeCommand_eq_ok, encode, Nat.mod_eq_of_lt hn]
  | rxb | txdone => cases hport

theorem decodeCommand_eq_ok_iff_encode {w : Word16} {p : Payload} {i : Instr} :
    decodeCommand w p = .ok i ↔
      i.wf = true ∧ i.port = .host ∧ i.readsPayload p ∧ w = (encode i).word := by
  refine ⟨encode_of_decodeCommand, ?_⟩
  rintro ⟨hwf, hport, hp, rfl⟩
  exact decodeCommand_encode hwf hport hp

theorem decodeEvent_eq_ok_iff_encode {w : Word16} {i : Instr} :
    decodeEvent w = .ok i ↔ i.port = .transport ∧ w = (encode i).word := by
  rw [decodeEvent_eq_ok]
  constructor
  · rintro ⟨hersv, hrow⟩
    obtain ⟨evt, data, rfl⟩ : ∃ evt data, w = eventWord evt data := ⟨_, _, (eventWord_of_fields hersv).symm⟩
    rw [evtField_eventWord, edataField_eventWord] at hrow
    rcases hrow with ⟨rfl, rfl⟩ | ⟨rfl, rfl, rfl⟩ <;> exact ⟨rfl, rfl⟩
  · rintro ⟨hport, rfl⟩
    cases i with
    | rxb | txdone => simp [encode]
    | _ => cases hport

theorem mapError_eq_ok {ε ε' α : Type} {f : ε → ε'} {x : Except ε α} {a : α} :
    x.mapError f = .ok a ↔ x = .ok a := by
  cases x <;> simp [Except.mapError]

/-- A port's word decodes to exactly the well-formed instruction it encodes. -/
theorem decode_eq_ok_iff_encode {pw : PortWord} {i : Instr} :
    decode pw = .ok i ↔
      i.wf = true ∧ i.port = pw.port ∧ i.readsPayload pw.payload ∧ pw.word = (encode i).word := by
  unfold decode
  cases pw.port with
  | host => rw [mapError_eq_ok, decodeCommand_eq_ok_iff_encode]
  | transport =>
    rw [mapError_eq_ok, decodeEvent_eq_ok_iff_encode]
    exact ⟨fun ⟨hport, hw⟩ => ⟨wf_of_transport hport, hport, readsPayload_of_transport hport _, hw⟩,
      fun ⟨_, hport, _, hw⟩ => ⟨hport, hw⟩⟩

/-- Settles O1: an encoding meets the decoder's condition for its own instruction. -/
theorem decodeOfEncodeIsTheInstruction : Obligations.DecodeOfEncodeIsTheInstruction := fun i hwf =>
  decode_eq_ok_iff_encode.2 ⟨hwf, (encode_port i).symm, readsPayload_encode i, rfl⟩

/-- Settles O2: the decoder's condition is read the other way. -/
theorem encodeOfDecodedWordIsTheWord : Obligations.EncodeOfDecodedWordIsTheWord := by
  intro pw i h
  obtain ⟨hwf, hport, hp, hw⟩ := decode_eq_ok_iff_encode.1 h
  refine ⟨hwf, (encode_port i).trans hport, hw.symm, ?_, ?_⟩
  · rintro pol text rfl
    exact hp
  · rintro pol n value rfl
    exact hp

-- ---- The word of each instruction (R74, R77 to R79, R82)

section
variable {w : Word16} {p : Payload}

theorem decodeCommand_eq_cfg : (∃ en x2 div mode o r, decodeCommand w p = .ok (.cfg en x2 div mode o r)) ↔
    ∃ imm, w = commandWord 1#4 0#1 imm := by
  simp only [decodeCommand_eq_ok_iff_encode]
  constructor
  · rintro ⟨en, x2, div, mode, o, r, -, -, -, hw⟩
    exact ⟨_, hw⟩
  · rintro ⟨imm, rfl⟩
    exact ⟨_, _, _, _, _, _, rfl, rfl, trivial, (encode_cfgOfImm_word imm).symm⟩

theorem decodeCommand_eq_txb {pol : Polarity} {b : Byte} :
    decodeCommand w p = .ok (.txb pol b) ↔ w = commandWord 2#4 (polarityBit pol) b := by
  simp [decodeCommand_eq_ok_iff_encode, Instr.wf, Instr.port, Instr.readsPayload, encode]

theorem decodeCommand_eq_txs {pol : Polarity} {text : List Byte} :
    decodeCommand w p = .ok (.txs pol text) ↔ text = p.text ∧ w = commandWord 3#4 (polarityBit pol) 0#8 := by
  simp [decodeCommand_eq_ok_iff_encode, Instr.wf, Instr.port, Instr.readsPayload, encode]

theorem decodeCommand_eq_txi {pol : Polarity} {n : Nat} {value : U64} :
    decodeCommand w p = .ok (.txi pol n value) ↔
      n < 256 ∧ value = p.value ∧ w = commandWord 4#4 (polarityBit pol) (BitVec.ofNat 8 n) := by
  simp [decodeCommand_eq_ok_iff_encode, Instr.wf, Instr.port, Instr.readsPayload, encode]

theorem decodeCommand_eq_take : decodeCommand w p = .ok .take ↔ w = 0x5000#16 := by
  simp [decodeCommand_eq_ok_iff_encode, Instr.wf, Instr.port, Instr.readsPayload, encode, commandWord]

theorem decodeCommand_eq_rdsb {n : Nat} :
    decodeCommand w p = .ok (.rdsb n) ↔ n < 256 ∧ w = commandWord 6#4 0#1 (BitVec.ofNat 8 n) := by
  simp [decodeCommand_eq_ok_iff_encode, Instr.wf, Instr.port, Instr.readsPayload, encode]

theorem decodeCommand_eq_rdst : decodeCommand w p = .ok .rdst ↔ w = 0x7000#16 := by
  simp [decodeCommand_eq_ok_iff_encode, Instr.wf, Instr.port, Instr.readsPayload, encode, commandWord]

theorem decodeCommand_eq_ackerr {ovr ovsz : Bool} :
    decodeCommand w p = .ok (.ackerr ovr ovsz) ↔ w = commandWord 8#4 0#1 (ackerrImm ovr ovsz) := by
  simp [decodeCommand_eq_ok_iff_encode, Instr.wf, Instr.port, Instr.readsPayload, encode]

/-- A word of the host command port is legal when it is one of the eight rows'. -/
theorem decodes_iff_some_row : (∃ i, decodeCommand w p = .ok i) ↔
    (∃ en x2 div mode o r, decodeCommand w p = .ok (.cfg en x2 div mode o r)) ∨
      (∃ pol b, decodeCommand w p = .ok (.txb pol b)) ∨
      (∃ pol text, decodeCommand w p = .ok (.txs pol text)) ∨
      (∃ pol n v, decodeCommand w p = .ok (.txi pol n v)) ∨
      decodeCommand w p = .ok .take ∨ (∃ i, decodeCommand w p = .ok (.rdsb i)) ∨
      decodeCommand w p = .ok .rdst ∨ ∃ ovr ovsz, decodeCommand w p = .ok (.ackerr ovr ovsz) := by
  constructor
  · rintro ⟨i, h⟩
    cases i with
    | rxb | txdone =>
      obtain ⟨-, hport, -⟩ := encode_of_decodeCommand h
      cases hport
    | _ => simp [h]
  · rintro (⟨_, _, _, _, _, _, h⟩ | ⟨_, _, h⟩ | ⟨_, _, h⟩ | ⟨_, _, _, h⟩ | h | ⟨_, h⟩ | h | ⟨_, _, h⟩) <;>
      exact ⟨_, h⟩

end

/-- Settles O5: the two kinds are the encodings of `RXB` and `TXDONE`. -/
theorem eventWordsAreTheTwoKinds : Obligations.EventWordsAreTheTwoKinds := by
  intro w i
  have hrxb (b : Byte) : 0x1000#16 ||| b.setWidth 16 = (encode (.rxb b)).word := or_data_eq_eventWord 1#4 b
  have htxdone : 0x2000#16 = (encode .txdone).word := rfl
  rw [decodeEvent_eq_ok_iff_encode]
  cases i with
  | rxb b => simp [Instr.port, hrxb]
  | txdone => simp [Instr.port, htxdone]
  | _ => simp [Instr.port]

/-- Settles O6: the decoders are evaluated on the words. -/
theorem specWordsDecodeAsTheSpecSays : Obligations.SpecWordsDecodeAsTheSpecSays := by
  unfold Obligations.SpecWordsDecodeAsTheSpecSays
  decide

-- ---- The legal words as ranges of numbers, and their count (R84)

theorem ofNat_eq_commandWord {n : Nat} (hn : n < 65536) {op : BitVec 4} {pol : BitVec 1} {imm : Byte} :
    BitVec.ofNat 16 n = commandWord op pol imm ↔ n = op.toNat * 4096 + pol.toNat * 2048 + imm.toNat := by
  rw [← BitVec.toNat_inj, commandWord_toNat, BitVec.toNat_ofNat, Nat.mod_eq_of_lt hn]

/-- A byte added to `k` gives the numbers from `k` to `k + 255`. -/
theorem exists_eq_add_byte {n k : Nat} : (∃ b : Byte, n = k + b.toNat) ↔ k ≤ n ∧ n ≤ k + 255 := by
  constructor
  · rintro ⟨b, rfl⟩
    omega
  · rintro ⟨hlo, hhi⟩
    exact ⟨BitVec.ofNat 8 (n - k), by rw [BitVec.toNat_ofNat]; omega⟩

theorem Polarity.exists_iff {P : Polarity → Prop} : (∃ pol, P pol) ↔ P .dflt ∨ P .inv := by
  constructor
  · rintro ⟨_ | _, h⟩
    · exact .inl h
    · exact .inr h
  · exact fun h => h.elim (⟨_, ·⟩) (⟨_, ·⟩)

section
variable {n : Nat} (hn : n < 65536) (p : Payload)
include hn

/-- A count or index that fits `IMM8` takes every value of it. -/
theorem exists_count_eq_commandWord {op : BitVec 4} {pol : BitVec 1} :
    (∃ i, i < 256 ∧ BitVec.ofNat 16 n = commandWord op pol (BitVec.ofNat 8 i)) ↔
      ∃ b : Byte, n = op.toNat * 4096 + pol.toNat * 2048 + b.toNat := by
  simp only [ofNat_eq_commandWord hn]
  exact ⟨fun ⟨i, _, h⟩ => ⟨_, h⟩, fun ⟨b, h⟩ => ⟨b.toNat, b.isLt, by simpa using h⟩⟩

theorem cfg_word_iff :
    (∃ en x2 div mode o r, decodeCommand (BitVec.ofNat 16 n) p = .ok (.cfg en x2 div mode o r)) ↔
      0x1000 ≤ n ∧ n ≤ 0x10FF := by
  simp only [decodeCommand_eq_cfg, ofNat_eq_commandWord hn]
  exact exists_eq_add_byte (k := 0x1000)

theorem txb_word_iff : (∃ pol b, decodeCommand (BitVec.ofNat 16 n) p = .ok (.txb pol b)) ↔
    (0x2000 ≤ n ∧ n ≤ 0x20FF) ∨ (0x2800 ≤ n ∧ n ≤ 0x28FF) := by
  simp only [decodeCommand_eq_txb, ofNat_eq_commandWord hn, Polarity.exists_iff]
  exact or_congr (exists_eq_add_byte (k := 0x2000)) (exists_eq_add_byte (k := 0x2800))

theorem txs_word_iff : (∃ pol text, decodeCommand (BitVec.ofNat 16 n) p = .ok (.txs pol text)) ↔
    n = 0x3000 ∨ n = 0x3800 := by
  simp only [decodeCommand_eq_txs, ofNat_eq_commandWord hn, Polarity.exists_iff, exists_eq_left]
  rfl

theorem txi_word_iff : (∃ pol k v, decodeCommand (BitVec.ofNat 16 n) p = .ok (.txi pol k v)) ↔
    (0x4000 ≤ n ∧ n ≤ 0x40FF) ∨ (0x4800 ≤ n ∧ n ≤ 0x48FF) := by
  simp only [decodeCommand_eq_txi, Polarity.exists_iff, exists_and_left, exists_eq_left,
    exists_count_eq_commandWord hn]
  exact or_congr (exists_eq_add_byte (k := 0x4000)) (exists_eq_add_byte (k := 0x4800))

theorem take_word_iff : decodeCommand (BitVec.ofNat 16 n) p = .ok .take ↔ n = 0x5000 := by
  rw [decodeCommand_eq_take]
  bv_omega

theorem rdsb_word_iff : (∃ i, decodeCommand (BitVec.ofNat 16 n) p = .ok (.rdsb i)) ↔
    0x6000 ≤ n ∧ n ≤ 0x60FF := by
  simp only [decodeCommand_eq_rdsb, exists_count_eq_commandWord hn]
  exact exists_eq_add_byte (k := 0x6000)

theorem rdst_word_iff : decodeCommand (BitVec.ofNat 16 n) p = .ok .rdst ↔ n = 0x7000 := by
  rw [decodeCommand_eq_rdst]
  bv_omega

theorem ackerr_word_iff : (∃ ovr ovsz, decodeCommand (BitVec.ofNat 16 n) p = .ok (.ackerr ovr ovsz)) ↔
    0x8000 ≤ n ∧ n ≤ 0x8003 := by
  simp [decodeCommand_eq_ackerr, ofNat_eq_commandWord hn, Bool.exists_bool, ackerrImm]
  omega

end

/-- The ranges of the legal command words, each with its first and its last word (R84). -/
def legalRanges : Finset (Nat × Nat) :=
  {(0x1000, 0x10FF), (0x2000, 0x20FF), (0x2800, 0x28FF), (0x3000, 0x3000), (0x3800, 0x3800), (0x4000, 0x40FF),
    (0x4800, 0x48FF), (0x5000, 0x5000), (0x6000, 0x60FF), (0x7000, 0x7000), (0x8000, 0x8003)}

theorem isSome_toOption_iff {ε α : Type} {x : Except ε α} : x.toOption.isSome = true ↔ ∃ a, x = .ok a := by
  cases x <;> simp [Except.toOption]

theorem legal_iff_mem_legalRanges {n : Nat} (hn : n < 65536) (p : Payload) :
    (decodeCommand (BitVec.ofNat 16 n) p).toOption.isSome = true ↔ ∃ r ∈ legalRanges, r.1 ≤ n ∧ n ≤ r.2 := by
  rw [isSome_toOption_iff, decodes_iff_some_row, cfg_word_iff hn, txb_word_iff hn, txs_word_iff hn,
    txi_word_iff hn, take_word_iff hn, rdsb_word_iff hn, rdst_word_iff hn, ackerr_word_iff hn]
  simp only [legalRanges, Finset.mem_insert, Finset.mem_singleton, exists_eq_or_imp, exists_eq_left]
  omega

theorem legalRanges_below : ∀ r ∈ legalRanges, r.2 < 65536 := by decide

theorem legalRanges_apart : ∀ r ∈ legalRanges, ∀ q ∈ legalRanges, r ≠ q → r.2 < q.1 ∨ q.2 < r.1 := by decide

/-- The legal words are the disjoint union of the ranges. -/
theorem filter_legal_eq_union (p : Payload) :
    (Finset.range 65536).filter (fun n => (decodeCommand (BitVec.ofNat 16 n) p).toOption.isSome = true) =
      legalRanges.biUnion fun r => Finset.Icc r.1 r.2 := by
  ext n
  simp only [Finset.mem_filter, Finset.mem_range, Finset.mem_biUnion, Finset.mem_Icc]
  constructor
  · rintro ⟨hn, h⟩
    exact (legal_iff_mem_legalRanges hn p).1 h
  · rintro ⟨r, hr, hlo, hhi⟩
    have hn : n < 65536 := hhi.trans_lt (legalRanges_below r hr)
    exact ⟨hn, (legal_iff_mem_legalRanges hn p).2 ⟨r, hr, hlo, hhi⟩⟩

theorem card_union_legalRanges : (legalRanges.biUnion fun r => Finset.Icc r.1 r.2).card = 1544 := by
  have hdisjoint : (legalRanges : Set (Nat × Nat)).PairwiseDisjoint fun r => Finset.Icc r.1 r.2 := by
    intro r hr q hq hne
    refine Finset.disjoint_left.2 fun n hnr hnq => ?_
    have hapart := legalRanges_apart r hr q hq hne
    rw [Finset.mem_Icc] at hnr hnq
    omega
  rw [Finset.card_biUnion hdisjoint]
  simp only [Nat.card_Icc]
  rfl

/-- Settles O3: each row's words are its encodings, and the count is the sum over the ranges. -/
theorem legalWordsOfEachOpcode : Obligations.LegalWordsOfEachOpcode := fun p =>
  ⟨fun _ hn => ⟨cfg_word_iff hn p, txb_word_iff hn p, txs_word_iff hn p, txi_word_iff hn p,
    take_word_iff hn p, rdsb_word_iff hn p, rdst_word_iff hn p, ackerr_word_iff hn p⟩,
    (congrArg Finset.card (filter_legal_eq_union p)).trans card_union_legalRanges⟩

-- ---- The illegal command words (R76)

theorem exists_error_iff {ε α : Type} {x : Except ε α} : (∃ r, x = .error r) ↔ ¬ ∃ a, x = .ok a := by
  cases x <;> simp

/-- A command word is legal when none of the five bullets of R76 holds. -/
theorem decodes_iff_fields {w : Word16} {p : Payload} : (∃ i, decodeCommand w p = .ok i) ↔
    (1 ≤ (opField w).toNat ∧ (opField w).toNat ≤ 8) ∧ rsvField w = 0#3 ∧
      (polField w = true → opField w ∈ [2#4, 3#4, 4#4]) ∧
      (opField w ∈ [3#4, 5#4, 7#4] → immField w = 0#8) ∧
      (opField w = 8#4 → (immField w).extractLsb' 2 6 = 0#6) := by
  simp only [decodeCommand_eq_ok, exists_and_left, exists_or, exists_eq, and_true]
  generalize opField w = op, polField w = pol, immField w = imm, rsvField w = rsv
  constructor
  · rintro ⟨hrsv, ⟨rfl, rfl⟩ | rfl | ⟨rfl, rfl⟩ | rfl | ⟨rfl, rfl, rfl⟩ | ⟨rfl, rfl⟩ | ⟨rfl, rfl, rfl⟩ |
      ⟨rfl, rfl, hclr⟩⟩ <;> simp [*]
  · rintro ⟨hused, hrsv, hpol, himm, hclr⟩
    have hop : op = 1#4 ∨ op = 2#4 ∨ op = 3#4 ∨ op = 4#4 ∨ op = 5#4 ∨ op = 6#4 ∨ op = 7#4 ∨ op = 8#4 := by
      bv_omega
    rcases hop with rfl | rfl | rfl | rfl | rfl | rfl | rfl | rfl <;> simp_all

theorem immField_extractLsb' (w : Word16) : (immField w).extractLsb' 2 6 = w.extractLsb' 2 6 := by
  ext i hi
  simp [immField]

-- ---- The words of `CFG` and `ACKERR` (R77, R78)

theorem decodeCommand_cfg (imm : Byte) (p : Payload) :
    decodeCommand (0x1000#16 ||| imm.setWidth 16) p = .ok (cfgOfImm imm) := by
  rw [decodeCommand_eq_ok_iff_encode]
  exact ⟨rfl, rfl, trivial, (or_imm_eq_commandWord 1#4 0#1 imm).trans (encode_cfgOfImm_word imm).symm⟩

theorem bitOrderOf_eq_ite (b : Bool) : bitOrderOf b = if b then .lsbFirst else .msbFirst := by cases b <;> rfl

theorem roleOf_eq_ite (b : Bool) : roleOf b = if b then .master else .slave := by cases b <;> rfl

theorem commandWord_ackerrImm (ovr ovsz : Bool) : commandWord 8#4 0#1 (ackerrImm ovr ovsz) =
    0x8000#16 ||| (BitVec.ofBool ovr).setWidth 16 ||| (BitVec.ofBool ovsz).setWidth 16 <<< 1 := by
  cases ovr <;> cases ovsz <;> rfl

end Sys2Proof

namespace Sys2Proof.Machine

-- ---- The answer to an illegal word, and the effects of `CFG` and `ACKERR` (R180, R183, R221)

theorem stepInput_of_illegal {w : Word16} {p : Payload} {r : CmdReject} (h : decodeCommand w p = .error r)
    (s : State) : stepInput (.command w p) s = execIllegal s := by
  simp [stepInput, h]

/-- Settles O4: the five bullets are the negation of what a legal word's fields meet. -/
theorem illegalWordsAreAnsweredIllegal : Obligations.IllegalWordsAreAnsweredIllegal := by
  refine fun w p => ⟨?_, fun s r rest hw ht hi hd => ?_⟩
  · change _ ↔ ((opField w).toNat = 0 ∨ 9 ≤ (opField w).toNat) ∨ rsvField w ≠ 0#3 ∨
      (polField w = true ∧ opField w ∉ [2#4, 3#4, 4#4]) ∨ (opField w ∈ [3#4, 5#4, 7#4] ∧ immField w ≠ 0#8) ∨
      (opField w = 8#4 ∧ w.extractLsb' 2 6 ≠ 0#6)
    have hunused : (opField w).toNat = 0 ∨ 9 ≤ (opField w).toNat ↔
        ¬ (1 ≤ (opField w).toNat ∧ (opField w).toNat ≤ 8) := by omega
    rw [exists_error_iff, decodes_iff_fields, immField_extractLsb', hunused]
    simp only [not_and_or, Classical.not_imp, ne_eq]
  · calc step s
      _ = execIllegal { s with inputs := rest } := (step_of_cons hw hi).trans (stepInput_of_illegal hd _)
      _ = raiseErr .illegal { s with inputs := rest } := hostCommand_of_idle ht _

/-- Settles O7: the words are the encodings of a `CFG`, and its effect is `execCfg`'s. -/
theorem cfgWritesItsSixFields : Obligations.CfgWritesItsSixFields := by
  refine ⟨fun w p => ?_, fun imm p => ?_, fun en x2 div mode bitord role s ht => execCfg_eq_next.2 ⟨ht, rfl⟩⟩
  · rw [decodeCommand_eq_cfg]
    exact exists_congr fun imm => by rw [← or_imm_eq_commandWord]; rfl
  · rw [decodeCommand_cfg, cfgOfImm, bitOrderOf_eq_ite, roleOf_eq_ite]

/-- Settles O9: the words are the encodings of an `ACKERR`, and its effect is `execAckerr`'s. -/
theorem ackerrClearsTheNamedCounters : Obligations.AckerrClearsTheNamedCounters :=
  ⟨fun w ovr ovsz p => by rw [decodeCommand_eq_ackerr, commandWord_ackerrImm],
    fun ovr ovsz s ht => execAckerr_eq_next.2 ⟨ht, rfl⟩⟩

-- ---- The observations (R37, R80)

/-- A step gives a response in the five effects that answer, and none in the others. -/
theorem Effect.responses_grow {s t : State} (h : Effect s t) :
    t.responses = s.responses ∨ ∃ r, t.responses = s.responses ++ [r] := by
  cases h with
  | answers | configures | clears | drains | releases => exact .inr ⟨_, rfl⟩
  | _ => exact .inl rfl

theorem Effect.trace_grows {s t : State} (h : Effect s t) :
    t.trace = s.trace ∨ ∃ e, t.trace = s.trace ++ [e] := by
  rcases h.cs_trace with ⟨-, htr | ⟨b, htr⟩⟩ | htr
  · exact .inl htr
  · exact .inr ⟨_, htr⟩
  · exact .inr ⟨_, htr⟩

/-- Settles O34: each effect of a step adds at most one response and one event. -/
theorem observationsOnlyGrow : Obligations.ObservationsOnlyGrow := fun _ _ h =>
  have he := (step_effect h).2
  ⟨he.responses_grow, he.trace_grows⟩

-- ---- The assembler (R85 to R87)

/-- An instruction that a line is read as, if it is read as one, has an encoding. -/
def Encodable (o : Option Instr) : Prop := ∀ i, o = some i → i.wf = true

theorem Encodable.none : Encodable none := nofun

theorem Encodable.some {i : Instr} (h : i.wf = true) : Encodable (some i) := by
  rintro _ ⟨⟩
  exact h

theorem Encodable.map {α : Type} {f : α → Instr} {o : Option α} (h : ∀ a, o = .some a → (f a).wf = true) :
    Encodable (o.map f) := fun i hi => by
  obtain ⟨a, ha, rfl⟩ := Option.map_eq_some_iff.1 hi
  exact h a ha

theorem Encodable.bind {α : Type} {f : α → Option Instr} {o : Option α} (h : ∀ a, Encodable (f a)) :
    Encodable (o.bind f) := fun i hi => by
  obtain ⟨a, -, ha⟩ := Option.bind_eq_some_iff.1 hi
  exact h a i ha

theorem Encodable.ite {c : Prop} [Decidable c] {o o' : Option Instr} (h : Encodable o) (h' : Encodable o') :
    Encodable (if c then o else o') := by
  split
  · exact h
  · exact h'

theorem lt_of_parseBelow {bound n : Nat} {cs : List Char} (h : parseBelow bound cs = some n) : n < bound :=
  of_decide_eq_true (Option.filter_eq_some_iff.1 h).2

theorem ackerrLine_encodable (ts : List Tok) : Encodable (ackerrLine ts) := by
  unfold ackerrLine
  split
  · exact .some rfl
  · exact .ite (.some rfl) (.ite (.some rfl) .none)
  · exact .ite (.some rfl) .none
  · exact .none

theorem transmitLine_encodable (name : List Char) (pol : Polarity) (ts : List Tok) :
    Encodable (transmitLine name pol ts) := by
  refine .ite ?txb (.ite (.map fun _ _ => rfl) (.ite ?txi .none))
  case txb =>
    split
    · exact .map fun _ _ => rfl
    · exact .none
  case txi =>
    split
    · split
      · rename_i hcount _
        exact .some (decide_eq_true (lt_of_parseBelow hcount))
      · exact .none
    · exact .none

theorem plainLine_encodable (name : List Char) (ts : List Tok) : Encodable (plainLine name ts) := by
  have hword {i : Instr} (h : i.wf = true) : Encodable (if ts = [] then some i else none) := .ite (.some h) .none
  refine .ite (.map fun _ _ => rfl) (.ite (hword rfl) (.ite ?rdsb (.ite (hword rfl)
    (.ite (ackerrLine_encodable ts) .none))))
  case rdsb =>
    split
    · exact .map fun _ hindex => decide_eq_true (lt_of_parseBelow hindex)
    · exact .none

theorem eventLine_encodable (name : List Char) (ts : List Tok) : Encodable (eventLine name ts) := by
  refine .ite ?rxb (.ite (.ite (.some rfl) .none) .none)
  case rxb =>
    split
    · exact .map fun _ _ => rfl
    · exact .none

theorem parseLine_encodable (ts : List Tok) : Encodable (parseLine ts) := by
  unfold parseLine
  split
  · dsimp only
    split
    · split
      · rename_i hplain
        exact .some (plainLine_encodable _ _ _ hplain)
      · exact transmitLine_encodable _ _ _
    · exact .bind fun pol => transmitLine_encodable _ pol _
  · exact eventLine_encodable _ _
  · exact .none

theorem assemble_encodable (line : String) : Encodable (assemble line) := .bind parseLine_encodable

/-- Settles O55: a count or an index of a line is read below 256, so O1 applies. -/
theorem assembledLinesHaveEncodings : Obligations.AssembledLinesHaveEncodings := fun line i h =>
  have hwf := assemble_encodable line i h
  ⟨hwf, decodeOfEncodeIsTheInstruction i hwf⟩

end Sys2Proof.Machine
end

section
/-! PROOFS. The family of 40_receive_framer.md: when an `RXB` completes (R100), what it does with a payload byte
(R101, R102, R107) and with a delimiter (R103 to R105), and what it leaves alone (R109, R110). -/

namespace Sys2Proof.Machine

-- ---- A payload byte and a delimiter (R101 to R104)

theorem receivePayload_of_room {s : State} (b : Byte) (hi : s.rxIdx.toNat < s.par.capacity) :
    receivePayload b s = { s with stg := s.stg.write s.rxIdx.toNat b, rxIdx := s.rxIdx + 1#8 } := if_pos hi

/-- The first byte without room marks and counts the frame, and a later one finds the mark set. -/
theorem receivePayload_of_full {s : State} (b : Byte) (hi : s.par.capacity ≤ s.rxIdx.toNat) :
    receivePayload b s =
      { s with rxOvf := true, ovszCnt := if s.rxOvf then s.ovszCnt else satInc8 s.ovszCnt } := by
  rcases receivePayload_cases b s with ⟨hlt, -⟩ | ⟨-, ho, h⟩ | ⟨-, ho, h⟩
  · omega
  · rw [h, ho, if_pos rfl, ← ho]
  · rw [h, ho, if_neg Bool.false_ne_true]

/-- A frame is admitted when it fits, or under the policy `Truncate` (R103). -/
theorem dropsFrame_eq_false_iff (s : State) :
    dropsFrame s = false ↔ s.rxOvf = false ∨ s.par.oversize = .truncate := by
  unfold dropsFrame
  cases s.par.oversize <;> simp

theorem toNat_satInc8 (x : BitVec 8) : (satInc8 x).toNat = min 255 (x.toNat + 1) := by
  unfold satInc8
  split <;> bv_omega

-- ---- When an `RXB` completes, and with which state (R100 to R104)

section
variable {s : State} {rest : List Byte}

theorem exec_rxb_of_payload {b : Byte} (he : rxEnabled s = true) (hr : s.rxIn = b :: rest) (hb : b ≠ delim) :
    exec (.rxb b) s = .next (receivePayload b { s with rxIn := rest }) :=
  execRxb_eq_next.2 ⟨he, rest, hr, .inl ⟨hb, rfl⟩⟩

theorem exec_rxb_of_dropped (he : rxEnabled s = true) (hr : s.rxIn = delim :: rest)
    (hd : dropsFrame s = true) : exec (.rxb delim) s = .next (endFrame { s with rxIn := rest }) :=
  execRxb_eq_next.2 ⟨he, rest, hr, .inr ⟨rfl, receiveDelim_eq_next.2 (.inl ⟨hd, rfl⟩)⟩⟩

theorem exec_rxb_of_admitted (he : rxEnabled s = true) (hr : s.rxIn = delim :: rest)
    (hd : dropsFrame s = false) (hi : s.rxIdx.toNat ≤ s.par.capacity) :
    exec (.rxb delim) s = .next (endFrame (moveToSlot { s with rxIn := rest })) :=
  execRxb_eq_next.2 ⟨he, rest, hr, .inr ⟨rfl, receiveDelim_eq_next.2 (.inr ⟨hd, hi, rfl⟩)⟩⟩

end

/-- An `RXB` that completes stores its byte, drops it for want of room, drops its frame, or delivers its frame. -/
theorem exec_rxb_cases {s t : State} {b : Byte} (h : exec (.rxb b) s = .next t) :
    ∃ rest, s.rxIn = b :: rest ∧
      ((s.rxIdx.toNat < s.par.capacity ∧
          t = { s with rxIn := rest, stg := s.stg.write s.rxIdx.toNat b, rxIdx := s.rxIdx + 1#8 }) ∨
        t = { s with
          rxIn := rest, rxOvf := true, ovszCnt := if s.rxOvf then s.ovszCnt else satInc8 s.ovszCnt } ∨
        t = endFrame { s with rxIn := rest } ∨ t = endFrame (moveToSlot { s with rxIn := rest })) := by
  obtain ⟨-, rest, hr, ⟨-, rfl⟩ | ⟨-, hd⟩⟩ := execRxb_eq_next.1 h
  · refine ⟨rest, hr, ?_⟩
    rcases Nat.lt_or_ge s.rxIdx.toNat s.par.capacity with hi | hi
    · exact .inl ⟨hi, receivePayload_of_room b hi⟩
    · exact .inr (.inl (receivePayload_of_full b hi))
  · rcases receiveDelim_eq_next.1 hd with ⟨-, rfl⟩ | ⟨-, -, rfl⟩
    · exact ⟨rest, hr, .inr (.inr (.inl rfl))⟩
    · exact ⟨rest, hr, .inr (.inr (.inr rfl))⟩

/-- Settles O13: the byte is written at the cursor, which is below 255 and does not wrap. -/
theorem rxbStoresAPayloadByte : Obligations.RxbStoresAPayloadByte := by
  intro s b rest ⟨_, hcap⟩ hwf hen hrole hr hb hi
  refine ⟨s.stg.write s.rxIdx.toNat b, ?_, by bv_omega, fun j => ?_⟩
  · exact (exec_rxb_of_payload ((rxEnabled_iff s).2 ⟨hen, hrole⟩) hr hb).trans
      (congrArg _ (receivePayload_of_room b hi))
  · rw [Memory.read_write hwf]
    simp only [eq_comm]

/-- Settles O14: the one `RXB` that writes a cell of `Stg` stores below `L`. -/
theorem rxbDropsAnOversizeByte : Obligations.RxbDropsAnOversizeByte := by
  refine ⟨fun s b rest hen hrole hr hb hi => ?_, fun s t b hwf h j hj => ?_⟩
  · exact (exec_rxb_of_payload ((rxEnabled_iff s).2 ⟨hen, hrole⟩) hr hb).trans
      (congrArg _ (receivePayload_of_full b hi.ge))
  · obtain ⟨rest, -, ⟨hi, rfl⟩ | rfl | rfl | rfl⟩ := exec_rxb_cases h
    · exact (Memory.read_write hwf _ _ _).trans (if_neg (by omega))
    all_goals rfl

/-- Settles O15: the slot is the copy of the first `RxIdx` cells of `Stg`. -/
theorem rxbDelimiterMovesTheFrame : Obligations.RxbDelimiterMovesTheFrame :=
  fun s _ hwf hen hrole hr ha hi => ⟨s.slot.copy s.stg s.rxIdx.toNat,
    exec_rxb_of_admitted ((rxEnabled_iff s).2 ⟨hen, hrole⟩) hr ((dropsFrame_eq_false_iff s).2 ha) hi,
    Memory.read_copy hwf s.stg s.rxIdx.toNat⟩

/-- Settles O16: `Discard` drops the frame, and `Truncate` admits it, so O15 applies with `RxIdx = L`. -/
theorem rxbDelimiterOfAnOversizeFrame : Obligations.RxbDelimiterOfAnOversizeFrame := by
  refine fun s rest hwf hen hrole hr ho hi => ⟨fun hp => ?_, fun hp => ?_⟩
  · exact exec_rxb_of_dropped ((rxEnabled_iff s).2 ⟨hen, hrole⟩) hr ((dropsFrame_iff s).2 ⟨ho, hp⟩)
  · obtain ⟨slot, hx, hcells⟩ := rxbDelimiterMovesTheFrame s rest hwf hen hrole hr (.inr hp) hi.le
    exact ⟨slot, hx, hi, hi ▸ hcells⟩

-- ---- Overruns (R105)

/-- Of the effects a step can have, `OvrCnt` rises only in a delivery over an undrained frame: a reset and an
`ACKERR` can only lower it. -/
theorem Effect.ovrCnt_rises {s t : State} (h : Effect s t) (hlt : s.ovrCnt.toNat < t.ovrCnt.toNat) :
    nextInstr s = some (.rxb delim) ∧ s.ready = true ∧ dropsFrame s = false ∧
      t.ovrCnt = satInc8 s.ovrCnt := by
  cases h with
  | resets => exact absurd hlt (Nat.not_lt_zero _)
  | clears ovr =>
    cases ovr with
    | false => exact absurd hlt (Nat.lt_irrefl _)
    | true => exact absurd hlt (Nat.not_lt_zero _)
  | delivers _ hn _ _ hd =>
    cases hready : s.ready with
    | false => simp [hready] at hlt
    | true => exact ⟨hn, rfl, hd, by simp [hready]⟩
  | _ => exact absurd hlt (Nat.lt_irrefl _)

/-- A step that runs the delimiter of an admitted frame delivers it. -/
theorem step_of_admitted {s t : State} (h : step s = .next t) (hn : nextInstr s = some (.rxb delim))
    (hd : dropsFrame s = false) : ∃ rest, t = endFrame (moveToSlot { taken s with rxIn := rest }) := by
  rw [step_of_nextInstr (step_effect h).1 hn] at h
  obtain ⟨-, rest, -, ⟨hb, -⟩ | ⟨-, h⟩⟩ := execRxb_eq_next.1 h
  · exact absurd rfl hb
  · rcases receiveDelim_eq_next.1 h with ⟨hd', -⟩ | ⟨-, -, rfl⟩
    · exact absurd (hd.symm.trans hd') Bool.false_ne_true
    · exact ⟨rest, rfl⟩

/-- Settles O17: the count rises only in a delivery over an undrained frame, which moves the whole new frame. -/
theorem overrunIsAReplacedFrame : Obligations.OverrunIsAReplacedFrame := by
  refine fun s t h => ⟨fun hlt => ?_, fun hn hready ha => ?_⟩
  · obtain ⟨hn, hready, hd, hc⟩ := (step_effect h).2.ovrCnt_rises hlt
    have hsat := toNat_satInc8 s.ovrCnt
    rw [hc] at hlt ⊢
    exact ⟨hn, hready, (dropsFrame_eq_false_iff s).1 hd, by omega⟩
  · obtain ⟨rest, rfl⟩ := step_of_admitted h hn ((dropsFrame_eq_false_iff s).2 ha)
    refine ⟨?_, rfl, rfl, rfl⟩
    simp [hready, toNat_satInc8]

-- ---- What the framer leaves alone, and when it runs (R100, R109, R110)

/-- Settles O18: none of the things an `RXB` can do writes a field of the HOST's side, and a delivery sets `Ready`. -/
theorem framerLeavesTheHostSideAlone : Obligations.FramerLeavesTheHostSideAlone := by
  intro s t b h
  obtain ⟨rest, hr, ⟨-, rfl⟩ | rfl | rfl | rfl⟩ := exec_rxb_cases h <;>
    refine ⟨rfl, ?_, rfl, rfl, rfl, rfl, rfl, rfl, rfl, rfl, rfl, rfl, hr⟩
  pick_goal 4
  · exact fun _ => rfl
  all_goals exact id

/-- Settles O19: each byte that is taken has a next state, since the cursor's bound excludes the fault. -/
theorem interruptIsTakenWhenEnabledAndPending : Obligations.InterruptIsTakenWhenEnabledAndPending := by
  refine fun s b hi => ⟨fun ⟨t, h⟩ => ?_, fun ⟨hen, hrole, hhead⟩ => ?_⟩
  · obtain ⟨he, rest, hr, -⟩ := execRxb_eq_next.1 h
    obtain ⟨hen, hrole⟩ := (rxEnabled_iff s).1 he
    exact ⟨hen, hrole, by rw [hr]; rfl⟩
  · have he := (rxEnabled_iff s).2 ⟨hen, hrole⟩
    obtain ⟨rest, hr⟩ := List.head?_eq_some_iff.1 hhead
    by_cases hb : b = delim
    · subst hb
      cases hd : dropsFrame s with
      | false => exact ⟨_, exec_rxb_of_admitted he hr hd hi⟩
      | true => exact ⟨_, exec_rxb_of_dropped he hr hd⟩
    · exact ⟨_, exec_rxb_of_payload he hr hb⟩

end Sys2Proof.Machine
end

section
/-! PROOFS. The family of 41_snapshot_reader.md: what `TAKE` does (R120, R122) and what `RDSB` answers (R124, R225),
who writes the Stable Buffer (R125) and the ready slot (R126), and the round trip of a delivered frame (R127). -/

namespace Sys2Proof.Machine

-- ---- `TAKE` (R120, R122)

/-- A drain leaves the slot's frame in `Stb`, followed by `0x00` up to `L` (R120). -/
theorem read_drainSlot_stb {s : State} (hwf : s.stb.wf) (hl : s.slotLen.toNat ≤ s.par.capacity) (j : Nat) :
    (drainSlot s).stb.read j =
      if j < s.slotLen.toNat then s.slot.read j
      else if j < s.par.capacity then 0#8 else s.stb.read j := by
  rw [drainSlot_stb, Memory.read_zeroFrom (Memory.wf_copy hwf _ _), Memory.read_copy hwf, Nat.add_sub_cancel' hl]
  by_cases hj : j < s.slotLen.toNat
  · simp [hj, Nat.not_le.2 hj]
  · simp [hj, Nat.le_of_not_lt hj]

/-- A drain clears the cells it copied, and leaves the slot's other cells (R120, R123). -/
theorem read_drainSlot_slot {s : State} (hwf : s.slot.wf) (j : Nat) :
    (drainSlot s).slot.read j = if j < s.slotLen.toNat then 0#8 else s.slot.read j := by
  rw [drainSlot_slot, Memory.read_zeroFrom hwf]
  simp

/-- Settles O10: `TAKE` answers alone, or drains the slot; the cells are those of `drainSlot`. -/
theorem takeDrainsTheSlot : Obligations.TakeDrainsTheSlot := by
  refine ⟨fun _ _ => decodeCommand_eq_take, fun s ht hready => ?_, fun s ht hready hl hstb hslot => ?_⟩
  · exact execTake_eq_next.2 ⟨ht, .inl ⟨hready, rfl⟩⟩
  · exact ⟨(drainSlot s).stb, (drainSlot s).slot, execTake_eq_next.2 ⟨ht, .inr ⟨hready, hl, rfl⟩⟩,
      read_drainSlot_stb hstb hl, read_drainSlot_slot hslot⟩

-- ---- `RDSB` (R124, R225)

/-- Settles O11: the words are the encodings of an `RDSB`, and its effect is `execRdsb`'s on either side of `L`. -/
theorem rdsbAnswersOneByte : Obligations.RdsbAnswersOneByte := by
  refine ⟨fun w i p => ?_, fun i s ht => ⟨fun hi => ?_, fun hi => ?_⟩⟩
  · rw [decodeCommand_eq_rdsb]
    constructor
    · rintro ⟨hlt, rfl⟩
      exact ⟨BitVec.ofNat 8 i, (Nat.mod_eq_of_lt hlt).symm, (or_imm_eq_commandWord 6#4 0#1 _).symm⟩
    · rintro ⟨b, rfl, rfl⟩
      rw [BitVec.ofNat_toNat, BitVec.setWidth_eq]
      exact ⟨b.isLt, or_imm_eq_commandWord 6#4 0#1 b⟩
  · exact execRdsb_eq_next.2 ⟨ht, .inr ⟨hi, rfl⟩⟩
  · exact execRdsb_eq_next.2 ⟨ht, .inl ⟨hi, rfl⟩⟩

-- ---- Who writes the Stable Buffer and the ready slot (R125, R126)

/-- Settles O12: of the effects a step can have, only a drain and a reset write `Stb`. -/
theorem stableBufferIsWrittenOnlyByTake : Obligations.StableBufferIsWrittenOnlyByTake := by
  intro s t h hne
  cases (step_effect h).2 with
  | resets hr => exact .inl hr
  | drains _ hn hready => exact .inr ⟨hn, hready⟩
  | _ => exact absurd rfl hne

/-- Settles O20: of the effects a step can have, only a reset, a drain and a delivery write the slot, its length or
its flag. -/
theorem slotChangesOnlyAsAWhole : Obligations.SlotChangesOnlyAsAWhole := by
  intro s t h hne
  cases (step_effect h).2 with
  | resets hr => exact .inl hr
  | drains _ hn hready => exact .inr (.inl ⟨hn, hready, rfl, rfl⟩)
  | delivers _ hn _ _ hd => exact .inr (.inr ⟨hn, (dropsFrame_eq_false_iff s).1 hd, rfl, rfl, rfl⟩)
  | _ => simp at hne

-- ---- The round trip of a delivered frame (R127)

/-- The schedule that delivers one byte: it arrives, and its `RXB` is presented (R100, R233). -/
def delivery (b : Byte) : List Input := [.arrive b, .event (0x1000#16 ||| b.setWidth 16)]

/-- The first cells of a buffer hold `bytes`, in order. -/
def Memory.startsWith (m : Memory) (bytes : List Byte) : Prop :=
  ∀ i, i < bytes.length → some (m.read i) = bytes[i]?

/-- A byte written behind `bytes` extends them. -/
theorem Memory.startsWith.write {m : Memory} {bytes : List Byte} (h : m.startsWith bytes) (hwf : m.wf) (b : Byte) :
    (m.write bytes.length b).startsWith (bytes ++ [b]) := by
  intro i hi
  rw [read_write hwf]
  by_cases hlast : bytes.length = i
  · simp [← hlast]
  · rw [List.length_append, List.length_singleton] at hi
    have hlt : i < bytes.length := by omega
    rw [if_neg hlast, List.getElem?_append_left hlt, h i hlt]

/-- The state between two bytes of a frame: `bytes` have been received into `stg`, `waiting` have arrived, and `rest`
is scheduled. -/
def staged (stg : Memory) (bytes waiting : List Byte) (rest : List Input) (s : State) : State :=
  { s with stg := stg, rxIdx := BitVec.ofNat 8 bytes.length, rxIn := waiting, inputs := rest }

/-- A length up to `L` fits `RxIdx` and `SlotLen`. -/
theorem toNat_ofNat_of_le_capacity {p : Params} {n : Nat} (hw : p.wf) (h : n ≤ p.capacity) :
    (BitVec.ofNat 8 n).toNat = n := Nat.mod_eq_of_lt (Nat.lt_succ_of_le (h.trans hw.2))

/-- The event word of a byte runs its `RXB` (R82). -/
theorem step_of_rxb {s : State} {b : Byte} {rest : List Input} (hw : s.par.wf)
    (hi : s.inputs = .event (0x1000#16 ||| b.setWidth 16) :: rest) :
    step s = exec (.rxb b) { s with inputs := rest } :=
  (stepRunsTheDecodedInstruction s rest _ hw).2 _ hi ((eventWordsAreTheTwoKinds _ _).2 (.inl ⟨b, rfl, rfl⟩))

/-- The word of `TAKE` runs it. -/
theorem step_of_take {s : State} {p : Payload} {rest : List Input} (hw : s.par.wf)
    (hi : s.inputs = .command 0x5000#16 p :: rest) : step s = exec .take { s with inputs := rest } :=
  (stepRunsTheDecodedInstruction s rest _ hw).1 _ _ hi (decodeCommand_eq_take.2 rfl)

/-- The two entries of a delivery have the byte arrive and run its `RXB`. -/
theorem runSteps_delivery {s t : State} {stg : Memory} {bytes : List Byte} {b : Byte} {rest : List Input}
    (hw : s.par.wf) (he : rxEnabled s = true) (hx : exec (.rxb b) (staged stg bytes [b] rest s) = .next t) (n : Nat) :
    runSteps (n + 2) (staged stg bytes [] (delivery b ++ rest) s) = runSteps n t := by
  have harrive : step (staged stg bytes [] (delivery b ++ rest) s) =
      .next (staged stg bytes [b] (.event (0x1000#16 ||| b.setWidth 16) :: rest) s) :=
    (step_of_cons (s := staged _ _ _ _ s) hw rfl).trans (congrArg Host.Outcome.next (if_pos he))
  have hevent := (step_of_rxb (s := staged stg bytes [b] _ s) hw rfl).trans hx
  exact (runSteps_succ_of_next harrive (n + 1)).trans (runSteps_succ_of_next hevent n)

/-- A payload byte with room is received behind the ones before it. -/
theorem exec_rxb_staged {s : State} {stg : Memory} {bytes : List Byte} {b : Byte} {rest : List Input} (hw : s.par.wf)
    (he : rxEnabled s = true) (hroom : bytes.length < s.par.capacity) (hb : b ≠ delim) :
    exec (.rxb b) (staged stg bytes [b] rest s) =
      .next (staged (stg.write bytes.length b) (bytes ++ [b]) [] rest s) := by
  have hcursor : (staged stg bytes [] rest s).rxIdx.toNat = bytes.length := toNat_ofNat_of_le_capacity hw hroom.le
  calc exec (.rxb b) (staged stg bytes [b] rest s)
    _ = .next (receivePayload b (staged stg bytes [] rest s)) := exec_rxb_of_payload he rfl hb
    _ = .next (staged (stg.write bytes.length b) (bytes ++ [b]) [] rest s) := by
      rw [receivePayload_of_room b (hcursor.trans_lt hroom), hcursor]
      simp [staged, BitVec.ofNat_add]

/-- Payload bytes delivered one by one into an empty staging buffer with room for them stand in it in order. -/
theorem runSteps_stages {s : State} (hw : s.par.wf) (hwf : s.stg.wf) (he : rxEnabled s = true) (hr : s.rxIn = [])
    (hidx : s.rxIdx = 0#8) {bytes : List Byte} {rest : List Input} (hroom : bytes.length ≤ s.par.capacity)
    (hd : delim ∉ bytes) (hi : s.inputs = bytes.flatMap delivery ++ rest) :
    ∃ stg : Memory, stg.wf ∧ stg.startsWith bytes ∧
      ∀ n, runSteps (n + 2 * bytes.length) s = runSteps n (staged stg bytes [] rest s) := by
  induction bytes using List.reverseRecOn generalizing rest with
  | nil => exact ⟨s.stg, hwf, nofun, fun n => by cases s; simp_all [staged]⟩
  | append_singleton bytes b ih =>
    simp only [List.length_append, List.length_singleton, List.mem_append, List.mem_singleton, not_or] at hroom hd
    obtain ⟨stg, hstg, hstart, hrun⟩ := ih (rest := delivery b ++ rest) (by omega) hd.1 (by simp [hi])
    have hstore := exec_rxb_staged (stg := stg) (rest := rest) hw he hroom (Ne.symm hd.2)
    refine ⟨stg.write bytes.length b, Memory.wf_write hstg _ _, hstart.write hstg b, fun n => ?_⟩
    calc runSteps (n + 2 * (bytes ++ [b]).length) s
      _ = runSteps (n + 2 + 2 * bytes.length) s := by congr 1; simp; omega
      _ = runSteps (n + 2) (staged stg bytes [] (delivery b ++ rest) s) := hrun (n + 2)
      _ = runSteps n (staged (stg.write bytes.length b) (bytes ++ [b]) [] rest s) :=
        runSteps_delivery hw he hstore n

/-- The state in which the delimiter has moved the received `bytes` into the slot. -/
def handedOver (stg : Memory) (bytes : List Byte) (rest : List Input) (s : State) : State :=
  endFrame (moveToSlot (staged stg bytes [] rest s))

section
variable (s : State) (stg : Memory) (bytes : List Byte) (rest : List Input)

@[simp] theorem handedOver_slot :
    (handedOver stg bytes rest s).slot = s.slot.copy stg (BitVec.ofNat 8 bytes.length).toNat := rfl
@[simp] theorem handedOver_slotLen : (handedOver stg bytes rest s).slotLen = BitVec.ofNat 8 bytes.length := rfl

end

/-- The delimiter of a frame that fits hands it over (R103). -/
theorem exec_delim_staged {s : State} {stg : Memory} {bytes : List Byte} {rest : List Input} (hw : s.par.wf)
    (he : rxEnabled s = true) (ho : s.rxOvf = false) (hroom : bytes.length ≤ s.par.capacity) :
    exec (.rxb delim) (staged stg bytes [delim] rest s) = .next (handedOver stg bytes rest s) :=
  exec_rxb_of_admitted he rfl ((dropsFrame_eq_false_iff _).2 (.inl ho))
    ((toNat_ofNat_of_le_capacity hw hroom).trans_le hroom)

/-- Settles O21: the payload is staged, the delimiter hands it over, and the `TAKE` drains it (O10). -/
theorem deliveredFrameIsTakenIntact : Obligations.DeliveredFrameIsTakenIntact := by
  intro s payload p rest hw hstg hslot hstb ht hen hrole hr hidx ho hroom hd hi
  have he := (rxEnabled_iff s).2 ⟨hen, hrole⟩
  have hlen := toNat_ofNat_of_le_capacity hw hroom
  have hschedule : s.inputs = payload.flatMap delivery ++ (delivery delim ++ .command 0x5000#16 p :: rest) := by
    rw [hi, List.flatMap_append, List.append_assoc]
    rfl
  obtain ⟨stg, -, hstart, hrun⟩ := runSteps_stages hw hstg he hr hidx hroom hd hschedule
  have hdelim := exec_delim_staged (stg := stg) (rest := .command 0x5000#16 p :: rest) hw he ho hroom
  obtain ⟨stb, slot, htake, hcells, -⟩ := takeDrainsTheSlot.2.2 (handedOver stg payload rest s)
    ht rfl (hlen.trans_le hroom) hstb (Memory.wf_copy hslot _ _)
  have hstep := (step_of_take (s := handedOver stg payload (.command 0x5000#16 p :: rest) s) hw rfl).trans htake
  have hdrained :=
    calc runSteps (2 * (payload.length + 1) + 1) s
      _ = runSteps (3 + 2 * payload.length) s := by congr 1; omega
      _ = runSteps 3 (staged stg payload [] (delivery delim ++ .command 0x5000#16 p :: rest) s) := hrun 3
      _ = runSteps 1 (handedOver stg payload (.command 0x5000#16 p :: rest) s) := runSteps_delivery hw he hdelim 1
      _ = runSteps 0 _ := runSteps_succ_of_next hstep 0
  simp only [handedOver_slotLen, handedOver_slot, Memory.read_copy hslot, ← BitVec.ofNat_toNat, hlen] at hdrained hcells
  refine ⟨_, hdrained, rfl, fun i hlt => ?_, fun i hle hlt => ?_, rfl⟩
  · rw [hcells, if_pos hlt, if_pos hlt, hstart i hlt]
  · exact (hcells i).trans ((if_neg (Nat.not_lt.2 hle)).trans (if_pos hlt))

end Sys2Proof.Machine
end

section
/-! PROOFS. The family of 42_select_line.md: the levels of the line (R140), the micro-steps `S1` and `S3` (R143, R145)
and `TXDONE` (R144), the frame that stays whole on the wire (R150), and the frame that hangs (R149, R237). -/

namespace Sys2Proof.Machine

-- ---- The frame on the wire (R141, R150)

theorem frameOnWire_of_idle {s : State} (h : s.tx = .idle) : frameOnWire s := by
  simp [frameOnWire, h]

/-- What the trace of a frame being sent ends with. -/
theorem frameOnWire_iff_of_busy {s : State} {seq : List Byte} {k : Nat} {pol : Polarity} {phase : Phase}
    (h : s.tx = .busy seq k pol phase) :
    frameOnWire s ↔
      ∃ before, s.trace = before ++ .cs (act pol) :: (seq.take (bytesIssued k phase)).map .byte := by
  simp [frameOnWire, h]

/-- A completed byte has been issued: both phases that can follow `Wait` count it. -/
theorem bytesIssued_after_wait (k : Nat) (p : Prop) [Decidable p] :
    bytesIssued (k + 1) (if p then .release else .issue) = bytesIssued k .wait := by
  split <;> rfl

/-- Only `S0`, `S1` and a reset write to the trace of a sequencer that is busy after the step: `S0` starts a frame with
no byte issued, and `S1` appends the byte that the count of issued bytes takes in. -/
theorem Effect.keeps_frameOnWire {s t : State} (hs : frameOnWire s) (h : Effect s t) : frameOnWire t := by
  cases h with
  | resets | releases => exact frameOnWire_of_idle rfl
  | asserts => exact (frameOnWire_iff_of_busy rfl).2 ⟨s.trace, rfl⟩
  | issues seq k pol b _ ht hb =>
    obtain ⟨before, htrace⟩ := (frameOnWire_iff_of_busy ht).1 hs
    exact (frameOnWire_iff_of_busy (phase := .wait) rfl).2
      ⟨before, by simp [htrace, bytesIssued, List.take_add_one, hb]⟩
  | completes seq k pol _ ht =>
    have hissued := (frameOnWire_iff_of_busy ht).1 hs
    rw [frameOnWire_iff_of_busy rfl, bytesIssued_after_wait]
    exact hissued
  | _ => exact hs

/-- Settles O29: every effect a step can have keeps the frame whole. -/
theorem frameStaysWholeOnTheWire : Obligations.FrameStaysWholeOnTheWire := fun _ _ hs h =>
  (step_effect h).2.keeps_frameOnWire hs

-- ---- `S1` (R143)

/-- A scheduled turn of the HOST runs its micro-step. -/
theorem step_of_hostStep {s : State} {rest : List Input} (hw : s.par.wf) (hi : s.inputs = .hostStep :: rest) :
    step s = hostMicroStep { s with inputs := rest } := step_of_cons hw hi

/-- Settles O26: of the effects a step can have, only `S1` appends a byte to the trace. -/
theorem issueStepSendsTheNextByte : Obligations.IssueStepSendsTheNextByte := by
  refine ⟨fun s seq k pol b rest hw hi ht hb => ?_, fun s t b h htrace => ?_⟩
  · exact (step_of_hostStep hw hi).trans (hostMicroStep_eq_next.2 (.inl ⟨seq, k, pol, b, ht, hb, rfl⟩))
  · cases (step_effect h).2 with
    | issues seq k pol c _ ht hc =>
      obtain rfl : c = b := by simpa using htrace
      exact ⟨seq, k, pol, ht, hc, rfl⟩
    | _ => simp at htrace

-- ---- `S3`, and the whole frame it leaves on the wire (R145, R150)

/-- Settles O28: of the effects a step can have, only `S3` and a reset take a busy sequencer to `Idle`. -/
theorem releaseStepAnswers : Obligations.ReleaseStepAnswers := by
  refine ⟨fun s seq k pol rest hw hi ht => ?_, fun s t h hbusy hidle => ?_⟩
  · exact (step_of_hostStep hw hi).trans (hostMicroStep_eq_next.2 (.inr (.inl ⟨seq, k, pol, ht, rfl⟩)))
  · cases (step_effect h).2 with
    | resets hr => exact .inl hr
    | releases seq k pol _ ht => exact .inr ⟨seq, k, pol, ht⟩
    | asserts | issues | completes => cases hidle
    | _ => exact absurd hidle hbusy

/-- In phase `Release` of a consistent state every byte of the frame has been issued. -/
theorem whole_frame_issued_of_release {s : State} {seq : List Byte} {k : Nat} {pol : Polarity} (hf : frameOnWire s)
    (hc : Consistent s) (ht : s.tx = .busy seq k pol .release) :
    ∃ before, s.trace = before ++ .cs (act pol) :: seq.map .byte := by
  obtain ⟨-, -, -, -, -, hk⟩ := (txConsistent_iff_of_busy ht).1 hc.tx_ok
  obtain rfl : k = seq.length := hk
  simpa [bytesIssued] using (frameOnWire_iff_of_busy ht).1 hf

/-- Settles O30: `S3` (O28) appends its drive to a trace that ends with the whole frame. -/
theorem completedFrameIsOnTheWire : Obligations.CompletedFrameIsOnTheWire := by
  intro s seq k pol rest hw hf hc hi ht
  obtain ⟨before, htrace⟩ := whole_frame_issued_of_release hf hc ht
  exact ⟨_, before, releaseStepAnswers.1 s seq k pol rest hw hi ht, by simp [htrace]⟩

-- ---- A byte that is never completed (R149, R237)

theorem decodeCommand_ne_txdone (w : Word16) (p : Payload) : decodeCommand w p ≠ .ok .txdone := fun h => by
  obtain ⟨-, hport, -⟩ := encode_of_decodeCommand h
  cases hport

theorem toOption_eq_some {ε α : Type} {x : Except ε α} {a : α} : x.toOption = some a ↔ x = .ok a := by
  cases x <;> simp [Except.toOption]

/-- A completion comes from a scheduled event, or from a fair TRANSPORT. -/
theorem nextInstr_eq_txdone {s : State} (h : nextInstr s = some .txdone) :
    (∃ w, .event w ∈ s.inputs ∧ decodeEvent w = .ok .txdone) ∨ s.par.transportFair = true := by
  unfold nextInstr at h
  split at h
  · exact absurd (toOption_eq_some.1 h) (decodeCommand_ne_txdone _ _)
  · rename_i w rest hi
    exact .inl ⟨w, by simp [hi], toOption_eq_some.1 h⟩
  · cases h
  · cases h
  · cases h
  · split at h
    · split at h
      · rename_i hfair
        exact .inr hfair
      · cases h
    · cases h
    · cases h
    · split at h
      · split at h <;> cases h
      · cases h

/-- The schedule holds neither a reset nor a completion. -/
def HoldsNoCompletion (inputs : List Input) : Prop :=
  ∀ i ∈ inputs, i ≠ .reset ∧ ∀ w, i = .event w → decodeEvent w ≠ .ok .txdone

/-- From `s` on nothing has moved the sequencer, the line or an observation, and nothing to come completes a byte. -/
structure HangsSince (s t : State) : Prop where
  tx : t.tx = s.tx
  cs : t.cs = s.cs
  responses : t.responses = s.responses
  trace : t.trace = s.trace
  unfair : t.par.transportFair = false
  schedule : HoldsNoCompletion t.inputs

theorem HangsSince.not_resetsNext {s t : State} (h : HangsSince s t) : ¬ resetsNext t := fun hr =>
  (h.schedule _ (List.mem_of_head? hr)).1 rfl

theorem HangsSince.not_txdoneNext {s t : State} (h : HangsSince s t) : nextInstr t ≠ some .txdone := fun hn => by
  rcases nextInstr_eq_txdone hn with ⟨w, hmem, hd⟩ | hfair
  · exact (h.schedule _ hmem).2 w rfl hd
  · exact absurd hfair (by simp [h.unfair])

/-- In phase `Wait` every command is refused and the HOST has no micro-step; what is left is a step of the FRAMER or an
arrival, which touches none of the four. -/
theorem HangsSince.step {s t u : State} {seq : List Byte} {k : Nat} {pol : Polarity}
    (ht : s.tx = .busy seq k pol .wait) (h : HangsSince s t) (hstep : step t = .next u) : HangsSince s u := by
  have hreset := h.not_resetsNext
  have hdone := h.not_txdoneNext
  have hwait : t.tx = .busy seq k pol .wait := h.tx.trans ht
  have hrest : HoldsNoCompletion t.inputs.tail := fun i hi => h.schedule i (List.mem_of_mem_tail hi)
  cases (step_effect hstep).2 with
  | resets hr => exact absurd hr hreset
  | completes _ _ _ hn => exact absurd hn hdone
  | answers _ _ hidle | configures _ _ _ _ _ _ hidle | clears _ _ hidle | drains hidle | asserts _ _ hidle =>
    simp [hwait] at hidle
  | issues _ _ _ _ _ hphase | releases _ _ _ _ hphase => simp [hwait] at hphase
  | _ => exact { h with schedule := hrest }

/-- A predicate that every step keeps holds after every run. -/
theorem runSteps_keeps {P : State → Prop} (hkeep : ∀ s t, P s → step s = .next t → P t) {n : Nat} {s t : State}
    (hs : P s) (h : runSteps n s = .next t) : P t := by
  induction n generalizing s with
  | zero => exact next_eq_next.1 h ▸ hs
  | succ n ih =>
    rw [runSteps] at h
    cases hstep : step s with
    | next u => exact ih (hkeep s u hs hstep) (by simpa [hstep] using h)
    | fault | refused => simp [hstep] at h

/-- Settles O32: the hanging frame is an invariant of the steps. -/
theorem noCompletionHangsTheFrame : Obligations.NoCompletionHangsTheFrame := by
  intro n s t seq k pol ht hfair hinputs hrun
  have hstart : HangsSince s s := ⟨rfl, rfl, rfl, rfl, hfair, hinputs⟩
  have hend : HangsSince s t := runSteps_keeps (fun _ _ h => h.step ht) hstart hrun
  exact ⟨hend.tx, hend.cs, hend.responses, hend.trace⟩

-- ---- The levels, and `TXDONE` (R140, R144)

/-- Settles O22: the table of R140, entry by entry. -/
theorem levelsOfEachPolarity : Obligations.LevelsOfEachPolarity := ⟨rfl, rfl, rfl, rfl⟩

theorem decodeEvent_eq_txdone {w : Word16} : decodeEvent w = .ok .txdone ↔ w = 0x2000#16 :=
  decodeEvent_eq_ok_iff_encode.trans (and_iff_right rfl)

theorem execTxdone_of_not_wait {s : State} (h : ¬ ∃ seq k pol, s.tx = .busy seq k pol .wait) :
    execTxdone s = .refused .txdoneOutsideWait := by
  unfold execTxdone
  split
  · rename_i seq k pol ht
    exact absurd ⟨seq, k, pol, ht⟩ h
  all_goals rfl

/-- Settles O27: the word is `TXDONE`'s encoding, and the phase decides between the move and the refusal. -/
theorem txdoneMovesToTheNextByte : Obligations.TxdoneMovesToTheNextByte := by
  refine ⟨fun _ => decodeEvent_eq_txdone, fun s seq k pol ht => ?_, fun _ => execTxdone_of_not_wait⟩
  refine execTxdone_eq_next.2 ⟨seq, k, pol, ht, ?_⟩
  rw [apply_ite (TxState.busy seq (k + 1) pol)]

end Sys2Proof.Machine
end

section
/-! PROOFS. The family of 43_transmit_encoder.md: the words of `TXB`, `TXS` and `TXI`, their checks in the order of
R160, and the payload of the frame each of them starts (R161 to R164). -/

namespace Sys2Proof

-- ---- The words with an immediate, as an opcode and polarity part with `IMM8` or-ed in (R79, R161, R163)

section
variable {w : Word16} {p : Payload} {pol : Polarity}

theorem decodeCommand_eq_txb_or_imm {b : Byte} :
    decodeCommand w p = .ok (.txb pol b) ↔ w = commandWord 2#4 (polarityBit pol) 0#8 ||| b.setWidth 16 := by
  rw [decodeCommand_eq_txb, or_imm_eq_commandWord]

/-- Every immediate byte is a width of `TXI` to the decoder, those above 8 too (R79). -/
theorem decodeCommand_eq_txi_or_imm {n : Nat} {v : U64} :
    decodeCommand w p = .ok (.txi pol n v) ↔
      ∃ b : Byte, n = b.toNat ∧ v = p.value ∧ w = commandWord 4#4 (polarityBit pol) 0#8 ||| b.setWidth 16 := by
  simp only [decodeCommand_eq_txi, or_imm_eq_commandWord]
  constructor
  · rintro ⟨hn, hv, hw⟩
    exact ⟨BitVec.ofNat 8 n, (Nat.mod_eq_of_lt hn).symm, hv, hw⟩
  · rintro ⟨b, rfl, hv, hw⟩
    exact ⟨b.isLt, hv, by simpa using hw⟩

end

end Sys2Proof

namespace Sys2Proof.Machine

-- ---- The checks, in the order of R160

theorem txEnabled_eq_false_iff (s : State) : txEnabled s = false ↔ s.en = false ∨ s.role = .slave := by
  cases hr : s.role <;> simp [txEnabled, hr]

/-- The master check comes before every other check of a transmit command. -/
theorem transmitCommand_of_idle {s t : State} {r : Result} (ht : s.tx = .idle) (hr : r = .next t) :
    hostCommand s (if txEnabled s then r else raiseErr .notMaster s) =
      .next (if s.en = false ∨ s.role = .slave then respond .notMaster 0#32 s else t) := by
  rw [hostCommand_of_idle ht]
  by_cases he : s.en = false ∨ s.role = .slave
  · rw [if_pos he, (txEnabled_eq_false_iff s).2 he]
    rfl
  · have hen : txEnabled s = true := Bool.of_not_eq_false (mt (txEnabled_eq_false_iff s).1 he)
    rw [if_neg he, if_pos hen, hr]

/-- The delimiter check is the last one before `S0`. -/
theorem startFrame_eq (pol : Polarity) (payload : List Byte) (s : State) :
    startFrame pol payload s = .next (if s.par.txDelim = .reject ∧ delim ∈ payload then
      respond .delimInPayload 0#32 s else s0 pol (payload ++ [delim]) s) :=
  (apply_ite _ _ _ _).symm

-- ---- The payloads (R162, R164)

/-- The text of a `TXS` ends at its first `0x00` (R162). -/
theorem textPayload_append {sent rest : List Byte} (hsent : 0#8 ∉ sent) (hrest : rest = [] ∨ rest.head? = some 0#8) :
    textPayload (sent ++ rest) = sent := by
  induction sent with
  | nil =>
    rcases hrest with rfl | hhead
    · rfl
    · obtain ⟨tail, rfl⟩ := List.head?_eq_some_iff.1 hhead
      rfl
  | cons b sent ih =>
    rw [List.mem_cons, not_or] at hsent
    obtain ⟨hb, hsent⟩ := hsent
    rw [List.cons_append, textPayload, if_neg (Ne.symm hb), ih hsent]

/-- The byte at position `j` of `be_bytes(v, W)` has the shift `8 * (W - 1 - j)` (R164). -/
theorem beBytes_eq_map_range (v : U64) (w : Nat) :
    beBytes v w = (List.range w).map fun j => (v >>> (8 * (w - 1 - j))).setWidth 8 := by
  induction w with
  | zero => rfl
  | succ w ih =>
    have hshift (j : Nat) : w + 1 - 1 - (j + 1) = w - 1 - j := by omega
    rw [beBytes, ih, List.range_succ_eq_map, List.map_cons, List.map_map]
    congr 1
    exact List.map_congr_left fun j _ => by rw [Function.comp_apply, hshift]

-- ---- The three commands (R161, R162, R163)

/-- Settles O24: the payload is what stands before the first `0x00`. -/
theorem txsSendsUpToTheFirstNull : Obligations.TxsSendsUpToTheFirstNull := by
  refine ⟨fun w text p => ⟨decodeCommand_eq_txs.trans and_comm, decodeCommand_eq_txs.trans and_comm⟩,
    fun pol sent rest s ht hsent hrest => ?_⟩
  rw [exec, execTxs, textPayload_append hsent hrest]
  exact transmitCommand_of_idle ht (startFrame_eq pol sent s)

/-- Settles O25: the width check stands between the master check and the start of the frame. -/
theorem txiSendsTheLowBytesBigEndian : Obligations.TxiSendsTheLowBytesBigEndian := by
  refine ⟨fun w n v p => ⟨decodeCommand_eq_txi_or_imm, decodeCommand_eq_txi_or_imm⟩,
    fun pol w v bytes s ht hbytes => ?_⟩
  obtain rfl : bytes = beBytes v w := hbytes.trans (beBytes_eq_map_range v w).symm
  refine transmitCommand_of_idle ht ?_
  rw [startFrame_eq]
  exact (apply_ite _ _ _ _).symm

/-- Settles O23: the one byte of the payload is the delimiter when `b` is. -/
theorem txbChecksThenAsserts : Obligations.TxbChecksThenAsserts := by
  refine ⟨fun w b p => ⟨decodeCommand_eq_txb_or_imm, decodeCommand_eq_txb_or_imm⟩, fun pol b s ht => ?_⟩
  have hdelim : delim ∈ bytePayload b ↔ b = 0x0D#8 := List.mem_singleton.trans eq_comm
  have hframe := startFrame_eq pol (bytePayload b) s
  simp only [hdelim] at hframe
  exact transmitCommand_of_idle ht hframe

end Sys2Proof.Machine
end

section
/-! PROOFS. The family of 44_control_status.md: `RDST` answers the status word (R181, R182), and the transport fields
`X2`, `DIV`, `MODE` and `BITORD` change no rule (R184). -/

namespace Sys2Proof.Machine

-- ---- The transport fields change no rule (R184)
-- Every operation is compared with itself on the state that holds the four fields at 0. Both runs take the same
-- branch, for no test reads one of the four, and in each branch the two next states agree by computation. `CFG` and a
-- reset write the four fields, so the comparison forgets them in both next states, not in the first state alone.

/-- Two answers of the same kind, for the same reason, whose next states differ at most in `X2`, `DIV`, `MODE` and
`BITORD`. -/
def AnswersAlike (r r' : Result) : Prop := onNext withoutTransportFields r = onNext withoutTransportFields r'

section
variable (s : State)

theorem hostCommand_answersAlike {r r' : Result} (h : AnswersAlike r r') :
    AnswersAlike (hostCommand s r) (hostCommand (withoutTransportFields s) r') :=
  rel_ite h rfl

theorem startFrame_answersAlike (pol : Polarity) (payload : List Byte) :
    AnswersAlike (startFrame pol payload s) (startFrame pol payload (withoutTransportFields s)) :=
  rel_ite rfl rfl

theorem takeInterrupt_withoutTransportFields (b : Byte) :
    takeInterrupt b (withoutTransportFields s) = (takeInterrupt b s).map withoutTransportFields := by
  have hen : rxEnabled (withoutTransportFields s) = rxEnabled s := rfl
  unfold takeInterrupt
  rw [hen, withoutTransportFields_rxIn]
  split
  · split
    · rfl
    · split <;> rfl
  · rfl

theorem receivePayload_withoutTransportFields (b : Byte) :
    receivePayload b (withoutTransportFields s) = withoutTransportFields (receivePayload b s) := by
  simp only [receivePayload, apply_ite withoutTransportFields]
  rfl

theorem receiveDelim_answersAlike :
    AnswersAlike (receiveDelim s) (receiveDelim (withoutTransportFields s)) :=
  rel_ite rfl (rel_ite rfl rfl)

theorem execRxb_answersAlike (b : Byte) :
    AnswersAlike (execRxb b s) (execRxb b (withoutTransportFields s)) := by
  unfold execRxb
  rw [takeInterrupt_withoutTransportFields]
  cases takeInterrupt b s with
  | error r => rfl
  | ok s' =>
    refine rel_ite (receiveDelim_answersAlike s') ?_
    rw [receivePayload_withoutTransportFields]
    rfl

theorem execTxdone_answersAlike : AnswersAlike (execTxdone s) (execTxdone (withoutTransportFields s)) := by
  unfold execTxdone
  rw [withoutTransportFields_tx]
  split <;> rfl

theorem hostMicroStep_answersAlike :
    AnswersAlike (hostMicroStep s) (hostMicroStep (withoutTransportFields s)) := by
  unfold hostMicroStep
  rw [withoutTransportFields_tx]
  split
  · split <;> rfl
  all_goals rfl

theorem arrive_withoutTransportFields (b : Byte) :
    arrive b (withoutTransportFields s) = withoutTransportFields (arrive b s) := by
  simp only [arrive, apply_ite withoutTransportFields]
  rfl

theorem exec_answersAlike (i : Instr) : AnswersAlike (exec i s) (exec i (withoutTransportFields s)) := by
  have hframe := startFrame_answersAlike s
  cases i with
  | cfg | ackerr | rdst => exact hostCommand_answersAlike s rfl
  | txb | txs => exact hostCommand_answersAlike s (rel_ite (hframe _ _) rfl)
  | txi => exact hostCommand_answersAlike s (rel_ite (rel_ite rfl (hframe _ _)) rfl)
  | take => exact hostCommand_answersAlike s (rel_ite (rel_ite rfl rfl) rfl)
  | rdsb => exact hostCommand_answersAlike s (rel_ite rfl rfl)
  | rxb b => exact execRxb_answersAlike s b
  | txdone => exact execTxdone_answersAlike s

theorem stepInput_answersAlike (i : Input) :
    AnswersAlike (stepInput i s) (stepInput i (withoutTransportFields s)) := by
  cases i with
  | command w p =>
    simp only [stepInput]
    cases decodeCommand w p with
    | ok i => exact exec_answersAlike s i
    | error r => exact hostCommand_answersAlike s rfl
  | hostStep => exact hostMicroStep_answersAlike s
  | event w =>
    simp only [stepInput]
    cases decodeEvent w with
    | ok i => exact exec_answersAlike s i
    | error r => rfl
  | arrive b =>
    simp only [stepInput, arrive_withoutTransportFields]
    rfl
  | reset => rfl

theorem idleStep_answersAlike : AnswersAlike (idleStep s) (idleStep (withoutTransportFields s)) := by
  unfold idleStep
  rw [withoutTransportFields_tx, withoutTransportFields_rxIn]
  split
  · exact hostMicroStep_answersAlike s
  · exact hostMicroStep_answersAlike s
  · exact rel_ite (execTxdone_answersAlike s) rfl
  · split
    · exact rel_ite (execRxb_answersAlike s _) rfl
    · rfl

theorem step_answersAlike : AnswersAlike (step s) (step (withoutTransportFields s)) := by
  refine rel_ite ?_ rfl
  rw [withoutTransportFields_inputs]
  cases s.inputs with
  | nil => exact idleStep_answersAlike s
  | cons i rest => exact stepInput_answersAlike { s with inputs := rest } i

end

/-- Settles O50: each of the two states steps like the one state left when the four fields are forgotten. -/
theorem transportFieldsChangeNoRule : Obligations.TransportFieldsChangeNoRule := fun s t h =>
  calc onNext withoutTransportFields (step s)
    _ = onNext withoutTransportFields (step (withoutTransportFields s)) := step_answersAlike s
    _ = onNext withoutTransportFields (step (withoutTransportFields t)) := by rw [h]
    _ = onNext withoutTransportFields (step t) := (step_answersAlike t).symm

-- ---- The status word (R181, R182)

theorem roleBit_getElem (r : Role) : (roleBit r)[0] = decide (r = .master) := by cases r <;> rfl

/-- The five flags of the status word, bits 0 to 4. -/
theorem statusWord_flags (s : State) :
    (statusWord s).getLsbD 0 = s.ready ∧ (statusWord s).getLsbD 1 = s.en ∧
      (statusWord s).getLsbD 2 = decide (s.role = .master) ∧ (statusWord s).getLsbD 3 = s.cs ∧
      (statusWord s).getLsbD 4 = s.rxOvf := by
  simp [statusWord, bit32, roleBit_getElem]

/-- The fields of the status word that are wider than a flag, bit by bit: the unused bits, and three bytes. -/
theorem statusWord_fields (s : State) :
    (statusWord s).extractLsb' 5 3 = 0#3 ∧ (statusWord s).extractLsb' 8 8 = s.ovrCnt ∧
      (statusWord s).extractLsb' 16 8 = s.ovszCnt ∧ (statusWord s).extractLsb' 24 8 = s.rxIdx := by
  refine ⟨?_, ?_, ?_, ?_⟩
  all_goals
    refine BitVec.eq_of_getLsbD_eq fun i hi => ?_
    simp only [statusWord, bit32, BitVec.getLsbD_extractLsb', BitVec.getLsbD_or, BitVec.getLsbD_shiftLeft,
      BitVec.getLsbD_setWidth]
    interval_cases i <;> simp

/-- Settles O8: the answer is `execRdst`'s, and its data is the status word, field by field. -/
theorem rdstAnswersTheStatusWord : Obligations.RdstAnswersTheStatusWord := by
  refine ⟨fun w p => decodeCommand_eq_rdst, fun s ht => ⟨statusWord s, execRdst_eq_next.2 ⟨ht, rfl⟩, ?_⟩⟩
  obtain ⟨hready, hen, hrole, hcs, hovf⟩ := statusWord_flags s
  exact ⟨hready, hen, hrole, hcs, hovf, statusWord_fields s⟩

end Sys2Proof.Machine
end

section
/-! PROOFS. The family of 45_codec_reference.md: the big-endian fold of bytes to an integer (R200, R202) and the
three-way compare of two null-terminated operands (R201). -/

namespace Sys2Proof.Machine

-- ---- The big-endian fold (R200, R202)

@[simp] theorem bytesToU64_nil : bytesToU64 [] = 0#64 := rfl

@[simp] theorem bytesToU64_singleton (b : Byte) : bytesToU64 [b] = b.setWidth 64 := by simp [bytesToU64]

theorem bytesToU64_concat (bytes : List Byte) (b : Byte) :
    bytesToU64 (bytes ++ [b]) = bytesToU64 bytes <<< 8 ||| b.setWidth 64 :=
  List.foldl_concat ..

/-- The earlier bytes stand above the later ones, eight bits for each later byte. -/
theorem bytesToU64_append (early late : List Byte) :
    bytesToU64 (early ++ late) = bytesToU64 early <<< (8 * late.length) ||| bytesToU64 late := by
  induction late using List.reverseRecOn with
  | nil => simp
  | append_singleton late b ih =>
    rw [← List.append_assoc, bytesToU64_concat, bytesToU64_concat, ih, BitVec.shiftLeft_or_distrib,
      ← BitVec.shiftLeft_add, BitVec.or_assoc, List.length_append, List.length_singleton, Nat.mul_add_one]

theorem bytesToU64_cons (b : Byte) (bytes : List Byte) :
    bytesToU64 (b :: bytes) = b.setWidth 64 <<< (8 * bytes.length) ||| bytesToU64 bytes := by
  rw [← List.singleton_append, bytesToU64_append, bytesToU64_singleton]

/-- Settles O53: the bytes before the last eight are shifted past the 64 bits. -/
theorem onlyTheLastEightBytesCount : Obligations.OnlyTheLastEightBytesCount := by
  intro early late hlate
  have hlost : bytesToU64 early <<< (8 * late.length) = 0#64 := BitVec.shiftLeft_eq_zero (by omega)
  rw [bytesToU64_append, hlost, BitVec.zero_or]

@[simp] theorem length_beBytes (v : U64) (w : Nat) : (beBytes v w).length = w := by
  simp [beBytes_eq_map_range]

/-- The fold of `be_bytes(v, W)` keeps the low `8 * W` bits of `v` and clears the others. -/
theorem getLsbD_bytesToU64_beBytes (v : U64) (w i : Nat) :
    (bytesToU64 (beBytes v w)).getLsbD i = (decide (i < 8 * w) && v.getLsbD i) := by
  induction w with
  | zero => simp [beBytes]
  | succ w ih =>
    rw [beBytes, bytesToU64_cons, length_beBytes, BitVec.getLsbD_or, ih]
    by_cases hlow : i < 8 * w
    · have hi : i < 8 * (w + 1) := by omega
      simp [hlow, hi]
    · have hpos : 8 * w + (i - 8 * w) = i := by omega
      have hbyte : i - 8 * w < 8 ↔ i < 8 * (w + 1) := by omega
      by_cases h64 : i < 64
      · have h64' : i - 8 * w < 64 := by omega
        simp [hlow, hpos, hbyte, h64, h64']
      · simp [hlow, h64, BitVec.getLsbD_of_ge v i (by omega)]

/-- Settles O52: a value of `n` bytes has no bit outside the low `8 * n` that the fold keeps. -/
theorem integerRoundTrip : Obligations.IntegerRoundTrip := by
  intro n v _ hv
  refine BitVec.eq_of_getLsbD_eq fun i _ => ?_
  rw [getLsbD_bytesToU64_beBytes]
  by_cases hi : i < 8 * n
  · simp [hi]
  · have hbit : v.getLsbD i = false :=
      Nat.testBit_lt_two_pow (hv.trans_le (Nat.pow_le_pow_right two_pos (not_lt.1 hi)))
    rw [hbit, Bool.and_false]

-- ---- The three-way compare (R201)

/-- A common part without `0x00` does not decide. -/
theorem bytesEqualString_append_append {same : List Byte} (hsame : 0#8 ∉ same) (as ts : List Byte) :
    bytesEqualString (same ++ as) (same ++ ts) = bytesEqualString as ts := by
  induction same with
  | nil => rfl
  | cons b same ih =>
    rw [List.mem_cons, not_or] at hsame
    obtain ⟨hb, hsame⟩ := hsame
    simp [bytesEqualString, Ne.symm hb, ih hsame]

/-- The end of the text reads as `0x00`. -/
theorem bytesEqualString_cons_nil (a : Byte) (as : List Byte) : bytesEqualString (a :: as) [] = byteSign a 0#8 := rfl

/-- The end of the bytes reads as `0x00`. -/
theorem bytesEqualString_nil_cons (t : Byte) (ts : List Byte) : bytesEqualString [] (t :: ts) = byteSign 0#8 t := rfl

theorem bytesEqualString_cons_cons_of_ne {a t : Byte} (h : a ≠ t) (as ts : List Byte) :
    bytesEqualString (a :: as) (t :: ts) = byteSign a t := by
  simp [bytesEqualString, h]

/-- `0x00` on both sides ends the compare. -/
theorem bytesEqualString_null_null (as ts : List Byte) : bytesEqualString (0#8 :: as) (0#8 :: ts) = 0 := rfl

theorem sign_byteSign_of_ne {a t : Byte} (h : a ≠ t) :
    (byteSign a t).sign = if a.toNat < t.toNat then -1 else 1 := by
  rw [byteSign, if_neg h]
  split <;> rfl

/-- A byte other than `0x00` is above the end of an operand, from either side. -/
theorem sign_byteSign_null {a : Byte} (h : a ≠ 0#8) :
    (byteSign a 0#8).sign = 1 ∧ (byteSign 0#8 a).sign = -1 := by
  have hpos : 0 < a.toNat := Nat.pos_of_ne_zero fun h0 => h (BitVec.eq_of_toNat_eq h0)
  exact ⟨sign_byteSign_of_ne h, (sign_byteSign_of_ne h.symm).trans (if_pos hpos)⟩

/-- Settles O54: past the common part, each clause is one way the compare ends. -/
theorem compareSeesTheFirstDifference : Obligations.CompareSeesTheFirstDifference := by
  intro same as ts a t hsame hat
  have hskip := bytesEqualString_append_append hsame
  have hleft (bs : List Byte) : bytesEqualString (same ++ bs) same = bytesEqualString bs [] := by
    simpa using hskip bs []
  have hright (bs : List Byte) : bytesEqualString same (same ++ bs) = bytesEqualString [] bs := by
    simpa using hskip [] bs
  refine ⟨?_, ?_, ?_, ?_, ?_, fun ha => ?_⟩
  · rw [hskip, bytesEqualString_cons_cons_of_ne hat, sign_byteSign_of_ne hat]
  · rw [hskip, bytesEqualString_null_null]
  · simpa [bytesEqualString] using hskip [] []
  · rw [hleft, bytesEqualString_cons_nil]
    rfl
  · rw [hright, bytesEqualString_nil_cons]
    rfl
  · rw [hleft, hright, bytesEqualString_cons_nil, bytesEqualString_nil_cons]
    exact sign_byteSign_null ha

end Sys2Proof.Machine
end

section
/-! PROOFS. The family of 60_exceptions.md: an error changes nothing (R220), a byte that arrives waits and is delivered
in order (R36, R233), what is refused (R238), and the link of two devices, matched and not (R234). -/

namespace Sys2Proof.Machine

-- ---- Errors (R220)

/-- Of the effects that answer, `answers` alone can give a code other than `OK`. -/
theorem Effect.error_answer {s t : State} {r : Response} (h : Effect s t)
    (hr : t.responses = s.responses ++ [r]) (hc : r.code ≠ .ok) :
    r.data = 0#32 ∧ t = respond r.code r.data (taken s) ∧ s.tx = .idle := by
  cases h with
  | answers c d ht hd =>
    obtain rfl : ⟨c, d⟩ = r := by simpa using hr
    exact ⟨hd hc, rfl, ht⟩
  | configures | clears | drains | releases =>
    obtain rfl := List.singleton_inj.1 (List.append_cancel_left hr)
    exact absurd rfl hc
  | _ => simp at hr

/-- Settles O33: a step's error is one effect, which writes the response alone. -/
theorem errorsChangeNothing : Obligations.ErrorsChangeNothing := fun _ _ _ h hr hc =>
  (step_effect h).2.error_answer hr hc

-- ---- What arrives (R36, R233)

/-- An arrival writes `RxIn` alone, and only while reception is enabled. -/
theorem arrive_eq (b : Byte) (s : State) :
    arrive b s = { s with rxIn := if s.en = true ∧ s.role = .slave then s.rxIn ++ [b] else s.rxIn } := by
  simp only [arrive, rxEnabled_iff]
  split <;> rfl

/-- Settles O36: the step takes the scheduled arrival. -/
theorem arrivalsWaitInOrder : Obligations.ArrivalsWaitInOrder := fun _ b _ hw hi =>
  (step_of_cons hw hi).trans (congrArg _ (arrive_eq b _))

/-- Of the effects a step can have, those of an `RXB` take the head of `RxIn`, an arrival appends to it, and a reset
empties it. -/
theorem Effect.rxIn_writer {s t : State} (h : Effect s t) :
    t.rxIn = s.rxIn ∨ (∃ b, nextInstr s = some (.rxb b) ∧ s.rxIn = b :: t.rxIn) ∨
      (∃ b, s.inputs.head? = some (.arrive b) ∧ rxEnabled s = true ∧ t.rxIn = s.rxIn ++ [b]) ∨
      resetsNext s := by
  cases h with
  | arrives b hi he => exact .inr (.inr (.inl ⟨b, hi, he, rfl⟩))
  | resets hr => exact .inr (.inr (.inr hr))
  | stores b _ hn _ hr | dropsMore b _ hn _ hr | marks b _ hn _ hr => exact .inr (.inl ⟨b, hn, hr⟩)
  | discards _ hn _ hr | delivers _ hn _ hr => exact .inr (.inl ⟨delim, hn, hr⟩)
  | _ => exact .inl rfl

/-- Settles O37: no other effect than these three writes `RxIn`, a reset apart. -/
theorem pendingBytesAreDeliveredInOrder : Obligations.PendingBytesAreDeliveredInOrder := by
  intro s t h hnr
  rcases (step_effect h).2.rxIn_writer with hkeep | hdeliver | ⟨b, hi, he, happend⟩ | hreset
  · exact .inl hkeep
  · exact .inr (.inl hdeliver)
  · obtain ⟨hen, hrole⟩ := (rxEnabled_iff s).1 he
    exact .inr (.inr ⟨b, hi, hen, hrole, happend⟩)
  · exact absurd hreset hnr

-- ---- What is refused (R238)

/-- A busy block refuses every instruction of the host command port (R146). -/
theorem exec_of_busy {i : Instr} {s : State} (hport : i.port = .host) (ht : s.tx ≠ .idle) :
    exec i s = .refused .commandWhileBusy := by
  cases i with
  | rxb | txdone => cases hport
  | _ => exact hostCommand_of_busy ht _

/-- A busy block refuses every word on the host command port, legal or not. -/
theorem stepInput_command_of_busy {s : State} (w : Word16) (p : Payload) (ht : s.tx ≠ .idle) :
    stepInput (.command w p) s = .refused .commandWhileBusy := by
  rw [stepInput]
  split
  · rename_i i hd
    obtain ⟨-, hport, -⟩ := encode_of_decodeCommand hd
    exact exec_of_busy hport ht
  · exact hostCommand_of_busy ht _

theorem stepInput_event_of_error {s : State} {w : Word16} {r : EventReject} (hd : decodeEvent w = .error r) :
    stepInput (.event w) s = .refused .badEventWord := by
  simp [stepInput, hd]

/-- A step is refused when its input is, also where the parameters are not admitted (R5). -/
theorem step_refused_of_stepInput {s : State} {i : Input} {rest : List Input} {r : Refusal}
    (hi : s.inputs = i :: rest) (h : stepInput i { s with inputs := rest } = .refused r) :
    ∃ q, step s = .refused q := by
  by_cases hw : s.par.wf
  · exact ⟨r, (step_of_cons hw hi).trans h⟩
  · exact ⟨_, step_of_not_wf hw⟩

/-- The interrupt is not taken while it is not enabled, or with nothing pending. -/
theorem takeInterrupt_eq_error {b : Byte} {s : State} (h : rxEnabled s = false ∨ s.rxIn = []) :
    ∃ r, takeInterrupt b s = .error r := by
  cases hx : takeInterrupt b s with
  | error r => exact ⟨r, rfl⟩
  | ok t =>
    obtain ⟨he, rest, hr, -⟩ := takeInterrupt_eq_ok.1 hx
    rcases h with h | h
    · exact absurd (h.symm.trans he) Bool.false_ne_true
    · exact absurd (hr.symm.trans h) (List.cons_ne_nil b rest)

theorem exec_rxb_refused {b : Byte} {s : State} (h : rxEnabled s = false ∨ s.rxIn = []) :
    ∃ r, exec (.rxb b) s = .refused r := by
  obtain ⟨r, hr⟩ := takeInterrupt_eq_error (b := b) h
  exact ⟨r, by simp [exec, execRxb, hr]⟩

/-- Settles O35: each clause is one reason of R238. -/
theorem forbiddenInputsAreRefused : Obligations.ForbiddenInputsAreRefused := by
  refine fun s => ⟨fun hw => ⟨_, step_of_not_wf hw⟩, fun w rest r hi hd => ?_, fun ht => ?_, fun b h => ?_,
    fun w p rest hi ht => ?_⟩
  · exact step_refused_of_stepInput hi (stepInput_event_of_error hd)
  · exact ⟨_, execTxdone_of_not_wait ht⟩
  · refine exec_rxb_refused ?_
    rcases h with hen | hrole | hr
    · exact .inl (by simp [rxEnabled, hen])
    · exact .inl (by simp [rxEnabled, hrole])
    · exact .inr hr
  · exact step_refused_of_stepInput hi (stepInput_command_of_busy w p ht)

-- ---- The steps of the link (R234)

/-- On a matched link an arrival at the slave is the carrying of the byte on the wire. -/
theorem linkStep_arrive_of_matched {l : Link} (hm : linkMatched l = true) (b : Byte) :
    linkStep (.onSlave (.arrive b)) l = carryByte l := by
  simp [linkStep, hm]

/-- On a link that is not matched an arrival is the slave's own. -/
theorem linkStep_arrive_of_unmatched {l : Link} (hm : linkMatched l = false) (hw : l.slave.par.wf) (b : Byte) :
    linkStep (.onSlave (.arrive b)) l = .next { l with slave := arrive b l.slave } := by
  simp [linkStep, hm, slaveStep, deviceStep_of_wf _ hw, stepInput, onNext]

/-- The link after the master's `S1` on the byte `b`, the one with index `k` of its frame. -/
def afterIssue (seq : List Byte) (k : Nat) (pol : Polarity) (b : Byte) (l : Link) : Link :=
  { l with master := emit (.byte b) { l.master with tx := .busy seq k pol .wait }, onWire := some b }

theorem linkStep_issue {l : Link} {seq : List Byte} {k : Nat} {pol : Polarity} {b : Byte}
    (hw : l.master.par.wf) (ht : l.master.tx = .busy seq k pol .issue) (hb : seq[k]? = some b) :
    linkStep (.onMaster .hostStep) l = .next (afterIssue seq k pol b l) := by
  have hs1 := hostMicroStep_eq_next.2 (.inl ⟨seq, k, pol, b, ht, hb, rfl⟩)
  simp [linkStep, isTxdone, masterStep, deviceStep_of_wf _ hw, stepInput, hs1, onNext, wireAfter, issuedByte, ht, hb,
    afterIssue]

/-- A completion follows the arrival of its byte. -/
theorem linkStep_txdone {l m : Link} (hc : carryByte l = .next m) :
    linkStep (.onMaster (.event 0x2000#16)) l = masterStep (.event 0x2000#16) m := by
  have hdone : isTxdone (.event 0x2000#16) = true := by decide
  simp [linkStep, hdone, hc]

/-- The completion of the byte that the master waits for leaves the slave alone, and nothing on the wire. -/
theorem masterStep_txdone {l : Link} {seq : List Byte} {k : Nat} {pol : Polarity} (hw : l.master.par.wf)
    (ht : l.master.tx = .busy seq k pol .wait) :
    ∃ m, masterStep (.event 0x2000#16) l = .next m ∧ m.slave = l.slave ∧ m.onWire = none := by
  have hd := decodeEvent_eq_txdone.2 rfl
  have hx := execTxdone_eq_next.2 ⟨seq, k, pol, ht, rfl⟩
  rw [masterStep, deviceStep_of_wf _ hw]
  simp [stepInput, hd, exec, hx, onNext, wireAfter]

/-- A link that misses one part of the condition is not matched. -/
theorem linkMatched_eq_false {l : Link}
    (h : l.master.en = false ∨ l.slave.en = false ∨ l.master.role = .slave ∨ l.master.bitord ≠ l.slave.bitord ∨
      l.master.mode ≠ l.slave.mode ∨ l.master.div ≠ l.slave.div ∨ l.master.x2 ≠ l.slave.x2 ∨
      l.master.cs ≠ l.selected) : linkMatched l = false := by
  refine Bool.eq_false_iff.2 fun hm => ?_
  obtain ⟨hmen, hsen, hrole, -, hset, hcs⟩ := linkMatched_eq_true.1 hm
  obtain ⟨hbitord, hmode, hdiv, hx2⟩ := sameSettings_eq_true.1 hset
  simp [hmen, hsen, hrole, hbitord, hmode, hdiv, hx2, hcs] at h

-- ---- The link's two statements (R55, R234; U7)

/-- Settles O38: `S1` keeps the link matched, so the byte is carried, and both completions are steps of the link it has
been carried on. -/
theorem linkCarriesTheIssuedByte : Obligations.LinkCarriesTheIssuedByte := by
  intro l seq k pol b hwm hws hm hempty ht hb
  have hm1 : linkMatched (afterIssue seq k pol b l) = true := hm
  obtain ⟨l2, hcarry1, hmaster, hwire, hslave⟩ : ∃ l2, carryByte (afterIssue seq k pol b l) = .next l2 ∧
      l2.master = (afterIssue seq k pol b l).master ∧ l2.onWire = none ∧
      l2.slave = { l.slave with rxIn := l.slave.rxIn ++ [b] } :=
    ⟨_, carryByte_of_matched hm1 hws rfl, rfl, rfl, rfl⟩
  have hcarry2 : carryByte l2 = .next l2 := carryByte_of_empty hwire
  obtain ⟨l3, hdone, hslave3, hwire3⟩ := masterStep_txdone (l := l2) (by rw [hmaster]; exact hwm)
    (by rw [hmaster]; rfl)
  exact ⟨_, l2, linkStep_issue hwm ht hb, rfl, rfl, linkStep_arrive_of_matched hm1, hcarry1, hmaster, hwire, hslave,
    hcarry2, l3, (linkStep_txdone hcarry2).trans hdone, hslave3, hwire3, (linkStep_txdone hcarry1).trans hdone⟩

/-- Settles O56: without the condition nothing is carried and an arrival is the slave's own; with it an arrival is the
carrying of the byte on the wire. -/
theorem mismatchedLinkDeliversAnyBytes : Obligations.MismatchedLinkDeliversAnyBytes := by
  intro l hwm hws hrole
  refine ⟨fun h => ?_, fun hm => ⟨fun hempty b => ?_, fun c hc b => ?_⟩⟩
  · have hm := linkMatched_eq_false h
    refine ⟨fun b => ?_, fun seq k pol ht => ?_⟩
    · rw [linkStep_arrive_of_unmatched hm hws, arrive_eq]
      simp [hrole]
    · obtain ⟨m, hdone, hslave, -⟩ := masterStep_txdone hwm ht
      exact ⟨m, (linkStep_txdone (carryByte_of_unmatched hm)).trans hdone, hslave⟩
  · exact (linkStep_arrive_of_matched hm b).trans (carryByte_of_empty hempty)
  · exact (linkStep_arrive_of_matched hm b).trans (carryByte_of_matched hm hws hc)

end Sys2Proof.Machine
end

section
/-! PROOFS. The parameters of the instance (00_scope.md section 3). -/

namespace Sys2Proof.Machine

/-- No effect has the parameters among what it writes. A reset alone builds its state anew, from the reset
state of the same instance. -/
theorem Effect.keeps_par {s t : State} (h : Effect s t) : t.par = s.par := by
  cases h with
  | resets => rw [powerOnReset_par, taken_par]
  | _ => rfl

/-- Settles O48: every effect a step can have keeps the parameters. -/
theorem parametersNeverChange : Obligations.ParametersNeverChange := fun _ _ h =>
  (step_effect h).2.keeps_par

end Sys2Proof.Machine
end
